-- ==== Sys2Proof/Word.lean ====
section
/-! DEFINITION. The words of the block: bytes, 16-bit PCM samples, binary64 patterns, raw blocks (spec 30_encoding.md R60 to R64). -/

namespace Sys2Proof

/-- One 8-bit byte of a block (R40). -/
abbrev Byte := BitVec 8

/-- The 16-bit pattern of one PCM sample (R61); its value is its two's-complement reading (R43). -/
abbrev Sample := BitVec 16

/-- `F64`: the 64-bit pattern of an IEEE 754 binary64 value (R64). -/
abbrev F64 := BitVec 64

/-- A RawBlock as the host delivers or takes it: its bytes in address order (R9, R63). -/
abbrev RawBlock := List Byte

/-- Integers with the two formal symbols `+oo` and `-oo` of R7, the range of `trunc`. -/
inductive ExtInt where
  | negInf
  | int (z : Int)
  | posInf
  deriving DecidableEq, Repr

/-- The three arithmetic operations of R7, as the tag of a free NaN result. -/
inductive FloatOp where
  | mul
  | add
  | div
  deriving DecidableEq, Repr

end Sys2Proof
end

