-- ==== Sys2Proof/Syntax.lean ====
section
/-! DEFINITION. The seven operations of the block with their operands, and the request that carries one (spec 30_encoding.md R67, R72, R73). -/

namespace Sys2Proof

/-- The operations of R67, one constructor per row of the operation table, each with the operands of its assembler line (R72).
The operands are delivered with the request; they are not bits of the select code. -/
inductive Instr where
  /-- `RST` (R168): no operand. -/
  | rst
  /-- `DEC` (R100): one RawBlock. -/
  | dec (inp : RawBlock)
  /-- `QDM` (R120): one sequence of F64. -/
  | qdm (x : List F64)
  /-- `FIR` (R130): one sequence of F64. -/
  | fir (x : List F64)
  /-- `AMP` (R150): one sequence of F64. -/
  | amp (x : List F64)
  /-- `ENC` (R106): two sequences of F64. -/
  | enc (left right : List F64)
  /-- `PROC` (R160): one RawBlock. -/
  | proc (inp : RawBlock)
  deriving DecidableEq, Repr

/-- The operand part of a request, by request format (R67): OP0 none, OPB one block, OPS one sequence, OPS2 two sequences. -/
inductive Operands where
  | op0
  | opb (inp : RawBlock)
  | ops (x : List F64)
  | ops2 (left right : List F64)
  deriving DecidableEq, Repr

/-- A request as it is encoded: the 3-bit select code `OPSEL` and the operands (R67, R72). -/
structure OpRequest where
  opsel : BitVec 3
  operands : Operands
  deriving DecidableEq, Repr

/-- What the host can ask for: an encoded operation, or the pseudo-operation `RUN` (R73, R170). -/
inductive Request where
  | op (r : OpRequest)
  | run
  deriving DecidableEq, Repr

end Sys2Proof
end

