-- ==== Sys2Proof/Decode.lean ====
section
/-! DEFINITION. From an encoded request to an operation and back (spec 30_encoding.md R67, R70, R72; opcode_table.json). The select code is
the 3-bit field `[2:0]` of the request under mask `0x7`; the operands are delivered with it. -/

namespace Sys2Proof

/-- Why a request decodes to no operation. -/
inductive DecodeError where
  /-- `OPSEL = 111` selects no operation (R70 (a), `ReservedOp` of R192). -/
  | reservedOp
  /-- The operands are not those of the select code's request format (R67). -/
  | operandFormat
  deriving DecidableEq, Repr

/-- What decoding answers. -/
inductive DecodeResult where
  | ok (i : Instr)
  | error (e : DecodeError)
  deriving DecidableEq, Repr

/-- The operation map of R67: total, every other request rejected by name. -/
def decode (r : OpRequest) : DecodeResult :=
  match r.opsel.toNat, r.operands with
  | 0, .op0 => .ok .rst
  | 1, .opb inp => .ok (.dec inp)
  | 2, .ops x => .ok (.qdm x)
  | 3, .ops x => .ok (.fir x)
  | 4, .ops x => .ok (.amp x)
  | 5, .ops2 left right => .ok (.enc left right)
  | 6, .opb inp => .ok (.proc inp)
  | 7, _ => .error .reservedOp
  | _, _ => .error .operandFormat

/-- The pair (OPSEL, operands) that encodes an operation (R72). -/
def encode : Instr → OpRequest
  | .rst => ⟨0b000#3, .op0⟩
  | .dec inp => ⟨0b001#3, .opb inp⟩
  | .qdm x => ⟨0b010#3, .ops x⟩
  | .fir x => ⟨0b011#3, .ops x⟩
  | .amp x => ⟨0b100#3, .ops x⟩
  | .enc left right => ⟨0b101#3, .ops2 left right⟩
  | .proc inp => ⟨0b110#3, .opb inp⟩

/-- The empty operands of a select code's request format (R67): what a request made of the table's bits alone delivers. -/
def emptyOperands (opsel : BitVec 3) : Operands :=
  match opsel.toNat with
  | 1 => .opb []
  | 2 => .ops []
  | 3 => .ops []
  | 4 => .ops []
  | 5 => .ops2 [] []
  | 6 => .opb []
  | _ => .op0

/-- The request whose bits are `w` and that delivers nothing else: the bits the table's mask `0x7` leaves out are no part of the select
code (log entry 14), and the operands are empty (log entry 9). -/
def tableRequest (_nbits w : Nat) : OpRequest :=
  ⟨BitVec.ofNat 3 w, emptyOperands (BitVec.ofNat 3 w)⟩

/-- The operation the decoder reads from a request whose bits are `w`, numbered as opcode_table.json numbers them. -/
def decodeTableWord (nbits w : Nat) : Option Instr :=
  match decode (tableRequest nbits w) with
  | .ok i => some i
  | .error _ => none

end Sys2Proof
end

