-- ==== Sys2Proof/Config.lean ====
section
/-! DEFINITION. What the block's builder fixes and what the spec leaves free (spec 00_scope.md R4, 93_implementation_defined.md U6, U9). -/

namespace Sys2Proof

/-- Number of FIR taps and of history entries, fixed (R4). -/
abbrev Config.taps : Nat := 27

/-- Bytes of one frame, fixed (R4). -/
abbrev Config.frameBytes : Nat := 4

/-- FREE VALUE (log entry 6). The pattern from which a NaN result takes its sign and payload, by operation and operands:
the spec allows any NaN (U6). -/
opaque Config.nanResult : FloatOp → F64 → F64 → F64

/-- FREE VALUE (log entry 1). The patterns from which the coefficient table's independent entries `C[0..13]` are made:
the spec leaves them OPEN (D10, U9). -/
opaque Config.coeffBits : Nat → F64

/-- The reference gain `G = 200.0` (R4, R24, R65), the default of the parameter (log entry 2). -/
def Config.gain : F64 := 0x4069000000000000#64

end Sys2Proof
end

