-- ==== Sys2Proof/Machine/Float.lean ====
section
/-! DEFINITION. Binary64 arithmetic as the spec fixes it: format R64, and the operations of R7, each correctly rounded once
(nearest, ties to even), with gradual underflow, overflow to infinity, the IEEE default results and no status flag (R33). -/

namespace Sys2Proof.Machine

/-! ## The format (R64) -/

/-- Bit 63, the sign. -/
def signBit (x : F64) : Bool := decide (2 ^ 63 ≤ x.toNat)

/-- Bits 62:52, the biased exponent. -/
def expField (x : F64) : Nat := x.toNat / 2 ^ 52 % 2 ^ 11

/-- Bits 51:0, the fraction. -/
def fracField (x : F64) : Nat := x.toNat % 2 ^ 52

def isNaN (x : F64) : Bool := expField x == 2047 && fracField x != 0

def isInf (x : F64) : Bool := expField x == 2047 && fracField x == 0

/-- Neither NaN nor infinity. -/
def isFinite (x : F64) : Bool := expField x != 2047

/-- Either zero. -/
def isZero (x : F64) : Bool := expField x == 0 && fracField x == 0

/-- The magnitude of a finite value in units of `2^-1074`, the least subnormal: every finite value is a whole number of them. -/
def magnitude (x : F64) : Nat :=
  if expField x = 0 then fracField x else (2 ^ 52 + fracField x) * 2 ^ (expField x - 1)

/-- The value of a finite `x` in units of `2^-1074` (R64). -/
def scaledInt (x : F64) : Int := if signBit x then -(magnitude x : Int) else magnitude x

/-- The pattern with the given sign and the given bits 62:0. -/
def pack (neg : Bool) (low : Nat) : F64 := BitVec.ofNat 64 ((if neg then 2 ^ 63 else 0) + low)

/-- Bits 62:0 of an infinity. -/
def infLow : Nat := 2047 * 2 ^ 52

def posZero : F64 := 0x0000000000000000#64

/-- `32768.0` (R65). -/
def scale : F64 := 0x40E0000000000000#64

/-! ## Rounding -/

/-- `num / den` to the nearest whole number, ties to even. -/
def roundQuot (num den : Nat) : Nat :=
  if 2 * (num % den) < den then num / den
  else if den < 2 * (num % den) then num / den + 1
  else num / den + num / den % 2

/-- How many of the low bits of a magnitude of `q` units lie below a 53-bit significand. -/
def dropBits (q : Nat) : Nat := Nat.log2 q - 52

/-- Bits 62:0 of the magnitude `num / den` (in units of `2^-1074`) rounded once to nearest, ties to even: a significand that
rounds up to `2^53` carries into the exponent, and what exceeds the largest finite value is infinity (R7). -/
def roundLow (num den : Nat) : Nat :=
  min infLow (dropBits (num / den) * 2 ^ 52 + roundQuot num (den * 2 ^ dropBits (num / den)))

/-! ## Not-a-number results -/

/-- Any pattern made a NaN, a NaN left as it is. -/
def asNaN (x : F64) : F64 := if isNaN x then x else x ||| 0x7FF8000000000000#64

/-- The NaN an operation delivers: sign and payload are free (U6, log entry 6). -/
def nanOf (op : FloatOp) (a b : F64) : F64 := asNaN (Config.nanResult op a b)

/-! ## The operations (R7) -/

/-- `fmul`: the correctly rounded product. -/
def fmul (a b : F64) : F64 :=
  if isNaN a || isNaN b || (isInf a && isZero b) || (isZero a && isInf b) then nanOf .mul a b
  else if isInf a || isInf b then pack (signBit a != signBit b) infLow
  else pack (signBit a != signBit b) (roundLow (magnitude a * magnitude b) (2 ^ 1074))

/-- The rounded finite sum: an exact zero sum is `+0.0` unless both operands are negative (`-0.0 + -0.0`). -/
def packSum (a b : F64) (z : Int) : F64 :=
  if z = 0 then pack (signBit a && signBit b) 0
  else pack (decide (z < 0)) (roundLow z.natAbs 1)

/-- `fadd`: the correctly rounded sum. -/
def fadd (a b : F64) : F64 :=
  if isNaN a || isNaN b || (isInf a && isInf b && (signBit a != signBit b)) then nanOf .add a b
  else if isInf a then a
  else if isInf b then b
  else packSum a b (scaledInt a + scaledInt b)

/-- `fdiv`: the correctly rounded quotient. -/
def fdiv (a b : F64) : F64 :=
  if isNaN a || isNaN b || (isInf a && isInf b) || (isZero a && isZero b) then nanOf .div a b
  else if isInf a || isZero b then pack (signBit a != signBit b) infLow
  else if isInf b then pack (signBit a != signBit b) 0
  else pack (signBit a != signBit b) (roundLow (magnitude a * 2 ^ 1074) (magnitude b))

/-- `i2f`: the binary64 value of an integer, `+0.0` for 0; exact wherever the spec applies it (R7). -/
def i2f (z : Int) : F64 := pack (decide (z < 0)) (roundLow (z.natAbs * 2 ^ 1074) 1)

/-- `trunc`: toward zero to an integer, `+oo` and `-oo` for the infinities; none for a NaN, on which R7 does not define it. -/
def trunc (x : F64) : Option ExtInt :=
  if isNaN x then none
  else if isInf x then some (if signBit x then .negInf else .posInf)
  else some (.int (if signBit x then -((magnitude x / 2 ^ 1074 : Nat) : Int) else (magnitude x / 2 ^ 1074 : Nat)))

/-- Addition of an integer to an extended integer (R7). -/
def extAdd (e : ExtInt) (n : Int) : ExtInt :=
  match e with
  | .negInf => .negInf
  | .int z => .int (z + n)
  | .posInf => .posInf

/-- `sat16`: the saturating clamp to `[-32768, 32767]` (R7, R111). -/
def sat16 (e : ExtInt) : Int :=
  match e with
  | .negInf => -32768
  | .int z => if z < -32768 then -32768 else if 32767 < z then 32767 else z
  | .posInf => 32767

/-! ## The coefficient table (R5, R66) -/

/-- Any pattern made finite, a finite one left as it is: the exponent 2047 loses its lowest bit. -/
def asFinite (x : F64) : F64 := if isFinite x then x else x &&& 0xFFEFFFFFFFFFFFFF#64

/-- The free table `C[0..26]` of `State.reset`: finite, and symmetric pattern for pattern (R5, R66; log entry 19, DESIGN
CHOICE), otherwise open (D10, log entry 1). -/
def coefficients : Vector F64 27 := Vector.ofFn fun j => asFinite (Config.coeffBits (min j.val (26 - j.val)))

end Sys2Proof.Machine
end

