-- ==== Sys2Proof/Machine/State.lean ====
section
/-! DEFINITION. The state of one instance of the block (spec 10_state.md R20), its configuration constants (R20, R23, R24), its two address
spaces (R40) and the host's side of its interface (44_pipeline_driver.md R172), as plain data. -/

namespace Sys2Proof.Machine

/-- The bytes of one address space: pairs of offset and byte, offsets strictly rising, no pair whose byte is what an unlisted offset reads as. -/
abbrev Memory := List Host.Cell

/-- One address space (R40): `len` bytes at offsets `0 .. len-1`. -/
structure Block where
  len : Nat
  cells : Memory
  deriving DecidableEq, Repr

/-- The sequencer position `SEQ` (R20, R26). -/
inductive SeqPos where
  /-- No block in progress. -/
  | idle
  /-- A block has been accepted and its output block has not yet been delivered. -/
  | busy
  /-- The stop request was honoured. -/
  | stopped
  deriving DecidableEq, Repr

/-- Why the machine stops with a fault. -/
inductive Fault where
  /-- Raised by `DEC`, `ENC` and `PROC` on an access outside `0 .. LEN-1` of a block, an address that does not exist (R40). R44 says it
  cannot happen and the model's laws prove so. SAFE: the model stops. -/
  | outOfBlock
  deriving DecidableEq, Repr

/-- Why a request has no meaning. The first five are the refusals of R192, under the spec's names. -/
inductive Refusal where
  /-- Raised by `ENC`, and by `PROC` in states outside R166: an element to encode is NaN (R113, R192). SAFE: the model gives no value. -/
  | encodeNaN
  /-- Raised by `ENC`: the operands differ in length (R106, R192). SAFE: the model gives no value. -/
  | encodeLengthMismatch
  /-- Raised by `PROC` while `FAULT = 1` (R161 (a), R192). SAFE: no state changes, as the spec says. -/
  | streamDead
  /-- Raised by `PROC` while `SEQ = STOPPED` (R161 (b), R192). SAFE: no state changes, as the spec says. -/
  | runStopped
  /-- Raised by the request step on `OPSEL = 111` (R70 (a), R192). SAFE: no state changes, as the spec says. -/
  | reservedOp
  /-- Raised by `PROC` while `SEQ = BUSY`: undefined, the spec gives such a request no step (R161 (c), R226; log
  entry 12). SAFE: the model stops. -/
  | procWhileBusy
  /-- Raised by the request step when the operands are not those of the request's format (R67; log entry 12). SAFE: the model stops. -/
  | operandFormat
  /-- Raised by an arm of `exec` that has no meaning yet; no arm does. SAFE: the model stops. -/
  | notModelled (mnemonic : String)
  deriving DecidableEq, Repr

/-- What the requester of the last operation was given (R67 results; R190, R194; R192). -/
inductive Reply where
  /-- Nothing: `RST` has no result, and the result of `PROC` goes to the sink. -/
  | none
  /-- The two ChannelStreams of `DEC`. -/
  | streams (s0 s1 : List F64)
  /-- The sequence of `QDM`, `FIR` or `AMP`. -/
  | samples (y : List F64)
  /-- The output block of `ENC`. -/
  | block (out : RawBlock)
  /-- The exception `MalformedBlock` with its cause code and the offending `LEN` (R190). -/
  | malformedBlock (cause len : Nat)
  /-- The request was turned away by a refusal of R192. -/
  | refused (r : Refusal)
  deriving DecidableEq, Repr

/-- The state of one instance (log entries 4, 17). -/
structure State where
  /-- `PREV` (R21). -/
  prev : F64
  /-- `H[0..26]`, oldest first (R22). -/
  hist : Vector F64 27
  /-- `FAULT` (R27). -/
  fault : Bool
  /-- `SEQ` (R26). -/
  seq : SeqPos
  /-- The configuration constant `C[0..26]` (R23). -/
  coeff : Vector F64 27
  /-- The configuration constant `G` (R24). -/
  gain : F64
  /-- The address space `IN` (R40). -/
  inp : Block
  /-- The address space `OUT` (R40). -/
  out : Block
  /-- What the last requester was given. -/
  reply : Reply
  /-- The complete output block offered to the sink and not yet taken (R26, R172). -/
  offered : Option RawBlock
  /-- The blocks the sink has taken, oldest first (R12, R47). -/
  sink : List RawBlock
  /-- Host input: the sink can take a block now (R170 "may block"). -/
  sinkReady : Bool
  /-- Host input: the stop level (R170, R196). -/
  stop : Bool
  /-- Host input: the reset request line (R196, R220), for a reset that goes before the requests still pending. -/
  resetReq : Bool
  /-- The `RUN` loop is in progress (R170). -/
  running : Bool
  /-- Host input: the blocks the source will deliver to `RUN`, oldest first (R47, R170). -/
  source : List RawBlock
  /-- Host input: the requests of the host's program in its order (R67, R72, R172); the oldest is the one the host makes now, and the others
  it has not made yet (log entries 9, 11). -/
  requests : List Request
  deriving DecidableEq, Repr

/-- An address space with no block in it. -/
def Block.empty : Block := ⟨0, []⟩

/-- The state right after reset (R31): `PREV` and `H` zero, `FAULT` 0, `SEQ` IDLE, `C` and `G` the configured values (log entries 1, 2); the
host's side holds nothing, the stop level is 0 and the sink can take a block (log entries 3, 4, 5). -/
def State.reset : State where
  prev := posZero
  hist := Vector.replicate 27 posZero
  fault := false
  seq := .idle
  coeff := coefficients
  gain := Config.gain
  inp := Block.empty
  out := Block.empty
  reply := .none
  offered := none
  sink := []
  sinkReady := true
  stop := false
  resetReq := false
  running := false
  source := []
  requests := []

end Sys2Proof.Machine
end

