-- ==== Sys2Proof/Machine/Ops.lean ====
section
/-! DEFINITION. The named operations over the two address spaces and the registers, and taking the one exception (spec 20_memory.md R40 to
R45, 10_state.md R20, 60_exceptions.md R190, R194, R195). -/

namespace Sys2Proof.Machine

/-! ## Bytes of an address space -/

/-- What an offset inside a block reads as when no pair lists it (log entry 3). -/
def unlistedByte : Byte := 0#8

/-- The byte at an offset. -/
def Memory.read (a : Nat) : Memory → Byte
  | [] => unlistedByte
  | c :: m => if c.1 = a then c.2 else Memory.read a m

/-- A pair in front of a memory, unless it says what an unlisted offset says anyway. -/
def Memory.cons (a : Nat) (b : Byte) (m : Memory) : Memory := if b = unlistedByte then m else (a, b) :: m

/-- The memory with one byte changed, in canonical form. -/
def Memory.write (a : Nat) (b : Byte) : Memory → Memory
  | [] => Memory.cons a b []
  | c :: m =>
    if c.1 < a then c :: Memory.write a b m
    else if c.1 = a then Memory.cons a b m
    else Memory.cons a b (c :: m)

/-- The canonical form: offsets strictly rising, no pair that an unlisted offset reads as. -/
def Memory.wf : Memory → Bool
  | [] => true
  | c :: m => c.2 != unlistedByte && m.all (fun d => decide (c.1 < d.1)) && Memory.wf m

/-- The canonical form, and every listed offset inside the block. -/
def Block.wf (b : Block) : Bool := Memory.wf b.cells && b.cells.all (fun c => decide (c.1 < b.len))

/-- One byte of a block; none outside `0 .. LEN-1` (R40). -/
def Block.readByte (b : Block) (a : Nat) : Option Byte := if a < b.len then some (Memory.read a b.cells) else none

/-- A block with one byte changed; none outside `0 .. LEN-1`. -/
def Block.writeByte (b : Block) (a : Nat) (v : Byte) : Option Block :=
  if a < b.len then some ⟨b.len, Memory.write a v b.cells⟩ else none

/-- The pairs of a list of bytes laid out from an offset on. -/
def cellsFrom (a : Nat) : List Byte → Memory
  | [] => []
  | b :: bs => Memory.cons a b (cellsFrom (a + 1) bs)

/-- The address space that holds a delivered block (R40, R63). -/
def Block.ofBytes (bs : RawBlock) : Block := ⟨bs.length, cellsFrom 0 bs⟩

/-- The bytes of an address space in address order, as they are handed to the host (R45). -/
def Block.bytes (b : Block) : RawBlock := (List.range b.len).map fun a => Memory.read a b.cells

/-- An address space of `len` bytes before any of them is written (log entry 3). -/
def Block.blank (len : Nat) : Block := ⟨len, []⟩

/-! ## Registers and ports -/

def State.setPrev (s : State) (v : F64) : State := { s with prev := v }
def State.setHist (s : State) (v : Vector F64 27) : State := { s with hist := v }
def State.setFault (s : State) (v : Bool) : State := { s with fault := v }
def State.setSeq (s : State) (v : SeqPos) : State := { s with seq := v }
def State.setInp (s : State) (v : Block) : State := { s with inp := v }
def State.setOut (s : State) (v : Block) : State := { s with out := v }
def State.setReply (s : State) (v : Reply) : State := { s with reply := v }
def State.setOffered (s : State) (v : Option RawBlock) : State := { s with offered := v }
def State.setSink (s : State) (v : List RawBlock) : State := { s with sink := v }
def State.setResetReq (s : State) (v : Bool) : State := { s with resetReq := v }
def State.setRunning (s : State) (v : Bool) : State := { s with running := v }
def State.setSource (s : State) (v : List RawBlock) : State := { s with source := v }
def State.setRequests (s : State) (v : List Request) : State := { s with requests := v }

/-- The source has delivered a whole block: it is the current `IN` (R40, R45; log entry 13). -/
def State.loadIn (s : State) (bs : RawBlock) : State := s.setInp (Block.ofBytes bs)

/-! ## The exception -/

/-- The cause code of `MalformedBlock` (R190). -/
def malformedCause : Nat := 1

/-- A block length is no whole number of frames: the condition of `MalformedBlock` (R101, R190). -/
def malformedLen (len : Nat) : Bool := len % Config.frameBytes != 0

/-- Taking `MalformedBlock` (R190, R194): the cause code and `LEN` are presented to the requester. Nothing is saved, there is no handler
address and no mode; there is no return from it, `RST` starts a new stream (R195). -/
def raiseMalformedBlock (s : State) (len : Nat) : State := s.setReply (.malformedBlock malformedCause len)

end Sys2Proof.Machine
end

