-- ==== Sys2Proof/Machine/Operands.lean ====
section
/-! DEFINITION. Operand assembly and disassembly: 16-bit accesses, samples, frames (spec 20_memory.md R41 to R45, R52; 30_encoding.md R62, R68,
R69; 00_scope.md R6, R8). -/

namespace Sys2Proof.Machine

/-- `sext_16` (R6, R43): the two's-complement reading of a sample. -/
def sext16 (v : Sample) : Int := if v.toNat < 32768 then (v.toNat : Int) else (v.toNat : Int) - 65536

/-- `enc16` (R6, R69): the pattern of an integer, `z mod 65536`. -/
def enc16 (z : Int) : Sample := BitVec.ofNat 16 (z % 65536).toNat

/-- `v[7:0]`. -/
def lowByte (v : Sample) : Byte := BitVec.ofNat 8 (v.toNat % 256)

/-- `v[15:8]`. -/
def highByte (v : Sample) : Byte := BitVec.ofNat 8 (v.toNat / 256)

/-- The sample made of a byte at the lower offset and one at the higher offset, little-endian (R42). -/
def sampleOf (lo hi : Byte) : Sample := BitVec.ofNat 16 (lo.toNat + 256 * hi.toNat)

/-- `MemRead(a, 2)` (R8, R42). -/
def memRead2 (b : Block) (a : Nat) : Option Sample :=
  match b.readByte a, b.readByte (a + 1) with
  | some lo, some hi => some (sampleOf lo hi)
  | _, _ => none

/-- `MemWrite(a, 2, v)` (R8, R42). -/
def memWrite2 (b : Block) (a : Nat) (v : Sample) : Option Block :=
  match b.writeByte a (lowByte v) with
  | some b' => b'.writeByte (a + 1) (highByte v)
  | none => none

/-- The two samples of frame `i`: channel 0 at `4i`, channel 1 at `4i + 2` (R41, R52). -/
def readFrame (b : Block) (i : Nat) : Option (Sample × Sample) :=
  match memRead2 b (4 * i), memRead2 b (4 * i + 2) with
  | some l, some r => some (l, r)
  | _, _ => none

/-- The frames `i, i+1, ..., i+n-1` of a block, in order (R103). -/
def readFrames (b : Block) (i : Nat) : Nat → Option (List (Sample × Sample))
  | 0 => some []
  | n + 1 =>
    match readFrame b i, readFrames b (i + 1) n with
    | some f, some fs => some (f :: fs)
    | _, _ => none

/-- Storing one frame's two integers (R52, R69). -/
def writeFrame (b : Block) (i : Nat) (z : Int × Int) : Option Block :=
  match memWrite2 b (4 * i) (enc16 z.1) with
  | some b' => memWrite2 b' (4 * i + 2) (enc16 z.2)
  | none => none

/-- Storing frames from frame `i` on, in order (R114). -/
def writeFrames (b : Block) (i : Nat) : List (Int × Int) → Option Block
  | [] => some b
  | z :: zs =>
    match writeFrame b i z with
    | some b' => writeFrames b' (i + 1) zs
    | none => none

/-- The four bytes of one output frame, in address order (R41, R42, R69). -/
def outFrame (z : Int × Int) : List Byte :=
  [lowByte (enc16 z.1), highByte (enc16 z.1), lowByte (enc16 z.2), highByte (enc16 z.2)]

end Sys2Proof.Machine
end

