-- ==== Sys2Proof/Machine/Codec.lean ====
section
/-! DEFINITION. The Sample Codec: `DEC` and `ENC` (spec 40_sample_codec.md R100 to R115). -/

namespace Sys2Proof.Machine

/-! ## DEC -/

/-- `dec1` (R102): the integer divided by 32768.0. -/
def dec1 (z : Int) : F64 := fdiv (i2f z) scale

/-- The two streams of a block of whole frames, channel 0 and channel 1 (R103); none on an access outside the block. -/
def decodeStreams (b : Block) : Option (List F64 × List F64) :=
  match readFrames b 0 (b.len / 4) with
  | some fs => some (fs.map (fun f => dec1 (sext16 f.1)), fs.map (fun f => dec1 (sext16 f.2)))
  | none => none

/-- `DEC` (R100, R101, R103): the length test comes before any byte is read. -/
def execDec (inp : RawBlock) (s : State) : Host.Outcome State Fault Refusal :=
  if malformedLen inp.length then .next (raiseMalformedBlock (s.loadIn inp) inp.length)
  else match decodeStreams (s.loadIn inp).inp with
    | some st => .next ((s.loadIn inp).setReply (.streams st.1 st.2))
    | none => .fault .outOfBlock

/-! ## ENC -/

/-- `scaled` (R107). -/
def scaled (v : F64) : F64 := fmul v scale

/-- `q` (R108): the scaled value truncated toward zero; none for a NaN. -/
def quantise (v : F64) : Option ExtInt := trunc (scaled v)

/-- `encL` (R109): clamped; none for a NaN. -/
def encL (v : F64) : Option Int := (quantise v).map sat16

/-- `encR` (R110, D4; log entry 15): truncated, then 32768 added, then clamped; none for a NaN. -/
def encR (v : F64) : Option Int := (quantise v).map fun e => sat16 (extAdd e 32768)

/-- The output integers of every frame (R114); none if an element is NaN (R113). The operands have one length. -/
def encSamples : List F64 → List F64 → Option (List (Int × Int))
  | l :: ls, r :: rs =>
    match encL l, encR r, encSamples ls rs with
    | some zl, some zr, some zs => some ((zl, zr) :: zs)
    | _, _, _ => none
  | _, _ => some []

/-- The output block of the integers (R114): `4 * L` bytes; none on an access outside the block. -/
def encodeBlock (zs : List (Int × Int)) : Option Block := writeFrames (Block.blank (4 * zs.length)) 0 zs

/-- `ENC` (R106, R113, R114). R106 and R192 give no order to the two refusals where both conditions hold; the lengths are compared first
(log entry 20, DESIGN CHOICE). -/
def execEnc (left right : List F64) (s : State) : Host.Outcome State Fault Refusal :=
  if left.length ≠ right.length then .refused .encodeLengthMismatch
  else match encSamples left right with
    | none => .refused .encodeNaN
    | some zs =>
      match encodeBlock zs with
      | some out => .next ((s.setOut out).setReply (.block out.bytes))
      | none => .fault .outOfBlock

end Sys2Proof.Machine
end

