-- ==== Sys2Proof/Machine/Demodulator.lean ====
section
/-! DEFINITION. The Quadrature Demodulator: `QDM` (spec 41_quadrature_demodulator.md R120 to R126). -/

namespace Sys2Proof.Machine

/-- The fold of the kernel of R121 over a sequence, from a value of `PREV`: the outputs and the value `PREV` ends with (R122). -/
def qdmSeq (prev : F64) : List F64 → List F64 × F64
  | [] => ([], prev)
  | x :: xs => (fmul prev x :: (qdmSeq x xs).1, (qdmSeq x xs).2)

/-- `QDM` (R120). -/
def execQdm (x : List F64) (s : State) : Host.Outcome State Fault Refusal :=
  .next ((s.setPrev (qdmSeq s.prev x).2).setReply (.samples (qdmSeq s.prev x).1))

end Sys2Proof.Machine
end

