-- ==== Sys2Proof/Machine/Filter.lean ====
section
/-! DEFINITION. The FIR Low-Pass Filter: `FIR` (spec 42_fir_filter.md R130 to R141). -/

namespace Sys2Proof.Machine

/-- The window shift of R131: the oldest entry goes, the new sample is `H[26]`. -/
def shiftIn (h : Vector F64 27) (x : F64) : Vector F64 27 := ⟨⟨h.toList.tail ++ [x]⟩, by simp⟩

/-- The ordered sum of R132 over pairs of a history entry and its coefficient: products rounded, added oldest first from an accumulator. -/
def dotFrom (acc : F64) : List (F64 × F64) → F64
  | [] => acc
  | p :: ps => dotFrom (fadd acc (fmul p.1 p.2)) ps

/-- `dot27` (R132, D3; log entry 15): from `+0.0`, `j = 0, 1, ..., 26`. -/
def dot27 (h c : Vector F64 27) : F64 := dotFrom posZero (h.toList.zip c.toList)

/-- The fold of the kernel of R131 to R133 over a sequence, from a history: the outputs and the history it ends with (R134). -/
def firSeq (c h : Vector F64 27) : List F64 → List F64 × Vector F64 27
  | [] => ([], h)
  | x :: xs => (dot27 (shiftIn h x) c :: (firSeq c (shiftIn h x) xs).1, (firSeq c (shiftIn h x) xs).2)

/-- `FIR` (R130). -/
def execFir (x : List F64) (s : State) : Host.Outcome State Fault Refusal :=
  .next ((s.setHist (firSeq s.coeff s.hist x).2).setReply (.samples (firSeq s.coeff s.hist x).1))

end Sys2Proof.Machine
end

