-- ==== Sys2Proof/Machine/Flags.lean ====
section
/-! DEFINITION. The block's only status: `FAULT` and `SEQ` (spec 10_state.md R26, R27). No arithmetic sets a flag (R27, R33). -/

namespace Sys2Proof.Machine

/-- Why `PROC` is not accepted, `FAULT` tested first, then `SEQ` (R161, R193 (a)); no other operation
is refused for them (log entry 18). -/
def procRefusal (s : State) : Option Refusal :=
  if s.fault then some .streamDead
  else match s.seq with
    | .idle => none
    | .busy => some .procWhileBusy
    | .stopped => some .runStopped

/-- Accepting a block: `SEQ` goes to BUSY with the block in `IN` (R26, R160). -/
def acceptBlock (s : State) (bs : RawBlock) : State := (s.loadIn bs).setSeq .busy

/-- `MalformedBlock` taken by `PROC`: the report, `FAULT` set, `SEQ` back to IDLE (R164, R194). -/
def faultStream (s : State) (len : Nat) : State := ((raiseMalformedBlock s len).setFault true).setSeq .idle

/-- The sink takes a block whole; the sequencer is idle again (R26, R45, R160). -/
def deliverBlock (s : State) (bs : RawBlock) : State :=
  ((s.setSink (s.sink ++ [bs])).setOffered none).setSeq .idle

/-- The block of a finished computation goes to the sink, or waits as the offered block, `SEQ` staying BUSY, while the sink cannot take it
(R26, R162, R170; log entry 5). -/
def offerBlock (s : State) (bs : RawBlock) : State :=
  if s.sinkReady then deliverBlock s bs else s.setOffered (some bs)

/-- A sink that has become ready takes the block that was waiting for it (R26, R172). -/
def takeOffered (s : State) : State :=
  match s.offered with
  | some bs => if s.sinkReady then deliverBlock s bs else s
  | none => s

/-- The stop request honoured between blocks: `SEQ` goes to STOPPED and the loop ends (R26, R170, R196). -/
def honourStop (s : State) : State := (s.setSeq .stopped).setRunning false

end Sys2Proof.Machine
end

