-- ==== Sys2Proof/Machine/Gain.lean ====
section
/-! DEFINITION. The Gain Stage: `AMP` (spec 43_gain_stage.md R150 to R154). -/

namespace Sys2Proof.Machine

/-- One rounded product per sample, no clamp (R151, R152). -/
def ampSeq (g : F64) (x : List F64) : List F64 := x.map fun v => fmul v g

/-- `AMP` (R150). -/
def execAmp (x : List F64) (s : State) : Host.Outcome State Fault Refusal :=
  .next (s.setReply (.samples (ampSeq s.gain x)))

end Sys2Proof.Machine
end

