-- ==== Sys2Proof/Machine/Pipeline.lean ====
section
/-! DEFINITION. Pipeline sequencing: `PROC` and `RST` (spec 44_pipeline_driver.md R160 to R169). -/

namespace Sys2Proof.Machine

/-- The demodulated, filtered and amplified stream of a channel-0 stream (R162: `d`, `f`, `a`). -/
def amplified (s : State) (s0 : List F64) : List F64 :=
  ampSeq s.gain (firSeq s.coeff s.hist (qdmSeq s.prev s0).1).1

/-- The state after the stages have run over a channel-0 stream: `PREV` and `H` carried on (R162, R173). -/
def afterStages (s : State) (s0 : List F64) : State :=
  (s.setPrev (qdmSeq s.prev s0).2).setHist (firSeq s.coeff s.hist (qdmSeq s.prev s0).1).2

/-- The output block of a finished block: into `OUT`, and to the sink; the requester gets nothing else (R162, R163), and the
reply is emptied (log entry 4, DESIGN CHOICE). -/
def finishBlock (s : State) (out : Block) : State := offerBlock ((s.setOut out).setReply .none) out.bytes

/-- The stages of an accepted block whose length is a whole number of frames (R162): channel 1 is decoded and discarded, and both encode
operands are the one amplified stream. -/
def runStages (s : State) : Host.Outcome State Fault Refusal :=
  match decodeStreams s.inp with
  | none => .fault .outOfBlock
  | some st =>
    match encSamples (amplified s st.1) (amplified s st.1) with
    | none => .refused .encodeNaN
    | some zs =>
      match encodeBlock zs with
      | none => .fault .outOfBlock
      | some out => .next (finishBlock (afterStages s st.1) out)

/-- `PROC` (R160 to R164): the refusal tests, then the length test, then the stages (R193 (a)). -/
def execProc (inp : RawBlock) (s : State) : Host.Outcome State Fault Refusal :=
  match procRefusal s with
  | some r => .refused r
  | none =>
    if malformedLen inp.length then .next (faultStream (acceptBlock s inp) inp.length)
    else runStages (acceptBlock s inp)

/-- `RST` (R168, R169): the reset values; a block in progress is abandoned and never delivered. `C`, `G`, the host's buffers and what the
sink has are untouched (R221); a loop in progress goes on (log entry 10). -/
def execRst (s : State) : Host.Outcome State Fault Refusal :=
  .next ((((((s.setPrev posZero).setHist (Vector.replicate 27 posZero)).setFault false).setSeq .idle).setOffered none).setReply .none)

end Sys2Proof.Machine
end

