-- ==== Sys2Proof/Machine/Dispatch.lean ====
section
/-! DEFINITION. One arm per operation of R67, each a call of its meaning. -/

namespace Sys2Proof.Machine

def exec (i : Instr) (s : State) : Host.Outcome State Fault Refusal :=
  match i with
  | .rst => Sys2Proof.Machine.execRst s
  | .dec inp => Sys2Proof.Machine.execDec inp s
  | .qdm x => Sys2Proof.Machine.execQdm x s
  | .fir x => Sys2Proof.Machine.execFir x s
  | .amp x => Sys2Proof.Machine.execAmp x s
  | .enc left right => Sys2Proof.Machine.execEnc left right s
  | .proc inp => Sys2Proof.Machine.execProc inp s

end Sys2Proof.Machine
end

