-- ==== Sys2Proof/Machine/Driver.lean ====
section
/-! DEFINITION. The Pipeline Driver's side of a step: running a request, one turn of the `RUN` loop, and the pseudo-operation `ROUNDTRIP`
(spec 44_pipeline_driver.md R170 to R172; 30_encoding.md R73; 60_exceptions.md R192, R193). -/

namespace Sys2Proof.Machine

/-- The refusals R192 lists: the request is turned away with all state unchanged, and the block goes on (V7, P4; log entry 7). -/
def turnedAway : Refusal → Bool
  | .encodeNaN => true
  | .encodeLengthMismatch => true
  | .streamDead => true
  | .runStopped => true
  | .reservedOp => true
  | _ => false

/-- The outcome of a request made in state `s`: a refusal of R192 leaves `s` as it is and is reported to the requester; any other stop stays a
stop. -/
def answer (s : State) (o : Host.Outcome State Fault Refusal) : Host.Outcome State Fault Refusal :=
  match o with
  | .next t => .next t
  | .fault f => .fault f
  | .refused r => if turnedAway r then .next (s.setReply (.refused r)) else .refused r

/-- A request for the operation `RST` (R67). -/
def asksForReset : Request → Bool
  | .run => false
  | .op r =>
    match decode r with
    | .ok .rst => true
    | _ => false

/-- The request the host makes now, the oldest one, is `RST` (log entry 11). -/
def oldestIsRst (s : State) : Bool :=
  match s.requests with
  | [] => false
  | q :: _ => asksForReset q

/-- A reset is requested (R193 (c), R196, R220): by the reset request line, or because the oldest request is `RST`. -/
def resetWanted (s : State) : Bool := s.resetReq || oldestIsRst s

/-- The reset request is taken off: the line is cleared, or else the `RST` that is the oldest request is taken (log entries 4, 11). -/
def takeReset (s : State) : State := if s.resetReq then s.setResetReq false else s.setRequests s.requests.tail

/-- A stage operation requested while a block is in progress waits until the block's output has been delivered: nothing else accesses `IN` or
`OUT` while `SEQ = BUSY` (R45), and the one agent does one operation after the other (R47, R51; log entry 21, DEDUCED). `RST` does not wait
(R169), and `PROC` has no step there (R226). -/
def heldBack (i : Instr) (s : State) : Bool :=
  match i with
  | .rst => false
  | .dec _ => s.seq == .busy
  | .qdm _ => s.seq == .busy
  | .fir _ => s.seq == .busy
  | .amp _ => s.seq == .busy
  | .enc _ _ => s.seq == .busy
  | .proc _ => false

/-- The oldest request is looked at; with none pending the block is idle, its state intact (R204, U17). A `RUN` starts the loop whatever
`SEQ` and `FAULT` are, the spec giving it no condition: with `SEQ = BUSY` the loop then waits for the sink (R170, R226), and the reply is emptied (both
log entry 8, DESIGN CHOICE). -/
def requestStep (s : State) : Host.Outcome State Fault Refusal :=
  match s.requests with
  | [] => .next s
  | .run :: rest => .next (((s.setRequests rest).setRunning true).setReply .none)
  | .op r :: rest =>
    match decode r with
    | .ok i => if heldBack i s then .next s else answer (s.setRequests rest) (exec i (s.setRequests rest))
    | .error .reservedOp => answer (s.setRequests rest) (.refused .reservedOp)
    | .error .operandFormat => .refused .operandFormat

/-- What a turn of the loop makes of the outcome of its `PROC` in state `s`: the block is taken from the source when it was accepted, and
`FAULT = 1` ends the loop (R170). A refused block is not taken (log entry 8). -/
def loopAnswer (s : State) (rest : List RawBlock) (o : Host.Outcome State Fault Refusal) : Host.Outcome State Fault Refusal :=
  match o with
  | .next t => .next ((t.setSource rest).setRunning (!t.fault))
  | .fault f => .fault f
  | .refused r => if turnedAway r then .next ((s.setReply (.refused r)).setRunning (!s.fault)) else .refused r

/-- One turn of the `RUN` loop (R170): while a block waits for the sink the stop level is not looked at (R228); between blocks the stop wins
over a block that has arrived (R193 (b)); with no block from the source the loop waits. -/
def loopStep (s : State) : Host.Outcome State Fault Refusal :=
  if s.seq = .busy then .next s
  else if s.stop then .next (honourStop s)
  else match s.source with
    | [] => .next s
    | b :: rest => loopAnswer s rest (exec (.proc b) s)

/-- One step (log entry 11): a reset request overrides everything (R169, R193 (c)), a block that waits for the sink and a loop in progress
included; then a ready sink takes the block that waits for it; then the loop, if one is in progress, or the oldest request. -/
def driverStep (s : State) : Host.Outcome State Fault Refusal :=
  if resetWanted s then exec .rst (takeReset s)
  else if (takeOffered s).running then loopStep (takeOffered s)
  else requestStep (takeOffered s)

/-- The next request is this one, and nothing keeps the step from looking at it: no reset request, no loop in progress. -/
def placeRequest (s : State) (r : Request) : State := ((s.setResetReq false).setRunning false).setRequests (r :: s.requests)

/-- `ROUNDTRIP in` (R73): `DEC in -> s0, s1`, then `ENC left=s0, right=s1`; a block that `DEC` rejects is not encoded. -/
def roundTrip (inp : RawBlock) (s : State) : Host.Outcome State Fault Refusal :=
  match exec (.dec inp) s with
  | .next t =>
    match t.reply with
    | .streams s0 s1 => exec (.enc s0 s1) t
    | _ => .next t
  | o => o

end Sys2Proof.Machine
end

