-- ==== Sys2Proof/Machine/Step.lean ====
section
/-! DEFINITION. The step of the machine, and where the host places the request that the next step looks at. -/

namespace Sys2Proof.Machine

/-- One step of the one agent: one operation applied to its whole operand, or one turn of the `RUN` loop (R11, R47; log
entry 16). -/
def step (s : State) : Host.Outcome State Fault Refusal := driverStep s

/-- `s` with the request whose select code is `w` (operands empty) as the one the next step looks at (log entry 9). -/
def State.withFetchWord (s : State) (nbits w : Nat) : State := placeRequest s (.op (tableRequest nbits w))

end Sys2Proof.Machine
end

