-- ==== Sys2Proof/WellFormed.lean ====
section
/-! DEFINITION. When an operation's operands are the ones the spec gives it a result for (spec R44, R70 (c) (e), R106), and when a
coefficient table and a gain are well-formed (R5). Decoding does not need these checks: what an ill-formed operand leads to (an exception
or a refusal) is the operation's own meaning. -/

namespace Sys2Proof

open Sys2Proof.Machine

/-- A block is a whole number of frames (R44): the one legality rule of a block (R70 (c)). -/
def wholeFrames (inp : RawBlock) : Bool := inp.length % Config.frameBytes == 0

/-- The operand check of R44, R70 and R106: whole frames; for `ENC`, equal lengths and no NaN. -/
def Instr.wellFormed : Instr → Bool
  | .rst => true
  | .dec inp => wholeFrames inp
  | .qdm _ => true
  | .fir _ => true
  | .amp _ => true
  | .enc left right => left.length == right.length && !(left.any isNaN) && !(right.any isNaN)
  | .proc inp => wholeFrames inp

/-- A coefficient table is well-formed: every entry finite and `C[i] = C[26-i]` (R5). R64 has the two zeros compare equal and R66 does not say
which equality `=` is; it is taken as equality of patterns, so that a pair `+0.0`, `-0.0` is not symmetric (log entry 19, DESIGN CHOICE). -/
def coeffWellFormed (c : Vector F64 27) : Bool := c.toList.all isFinite && c.toList.reverse == c.toList

/-- A gain is well-formed: finite (R5). -/
def gainWellFormed (g : F64) : Bool := isFinite g

end Sys2Proof
end

