-- ==== Sys2Proof/Safety.lean ====
section
/-! DEFINITION. What holds of a sound state and of a safe run, in the terms the statements use (spec R26, R40, R166). -/

namespace Sys2Proof.Machine

/-- Both address spaces are in canonical form. -/
def State.memoryWf (s : State) : Bool := s.inp.wf && s.out.wf

/-- `SEQ` is BUSY exactly while a complete output block waits for the sink (R26). -/
def State.seqMatchesOffer (s : State) : Bool := (s.seq == .busy) == s.offered.isSome

/-- Every block the sink has or is offered is a whole number of frames (R45, R163). -/
def State.blocksWhole (s : State) : Bool := s.offered.toList.all wholeFrames && s.sink.all wholeFrames

/-- The invariant every step keeps. -/
def State.Inv (s : State) : Bool := s.memoryWf && s.seqMatchesOffer && s.blocksWhole

/-- `PROC` would be accepted now (R160). -/
def State.accepting (s : State) : Bool := !s.fault && s.seq == .idle

/-- A finite value of magnitude at most `2^k`. -/
def boundedBy (k : Nat) (x : F64) : Bool := isFinite x && decide (magnitude x ≤ 2 ^ (1074 + k))

/-- The bounds R166 puts on the parameters: `C` well-formed with every `|C[j]| <= 2^1000`, `G` finite with `|G| <= 2^18`. -/
def State.parametersBounded (s : State) : Bool :=
  coeffWellFormed s.coeff && s.coeff.toList.all (boundedBy 1000) && boundedBy 18 s.gain

/-- What R166 says of the data registers of a stream: `PREV` and every `H[j]` in `[-1, 1]`. -/
def State.dataBounded (s : State) : Bool := boundedBy 0 s.prev && s.hist.toList.all (boundedBy 0)

/-- `PROC` of blocks one after the other (R167). -/
def procAll : List RawBlock → State → Host.Outcome State Fault Refusal
  | [], s => .next s
  | b :: bs, s =>
    match exec (.proc b) s with
    | .next t => procAll bs t
    | .fault f => .fault f
    | .refused r => .refused r

/-- The streaming form of R165: each frame's channel-0 sample goes through the demodulator, filter and gain kernels before the next frame is
looked at. The amplified samples, and the values `PREV` and `H` end with. -/
def streamed (c : Vector F64 27) (g prev : F64) (h : Vector F64 27) : List F64 → List F64 × F64 × Vector F64 27
  | [] => ([], prev, h)
  | x :: xs =>
    (fmul (dot27 (shiftIn h (fmul prev x)) c) g :: (streamed c g x (shiftIn h (fmul prev x)) xs).1,
      (streamed c g x (shiftIn h (fmul prev x)) xs).2)

/-- The sample at a byte offset of a delivered block, low byte first (R42, R68). -/
def sampleAt (bs : RawBlock) (a : Nat) : Sample := sampleOf (bs.getD a 0#8) (bs.getD (a + 1) 0#8)

/-- The ordered sum of R132 as the spec writes it: from `+0.0`, one rounded product added after the other, index 0 first. -/
def orderedSum (window c : List F64) : F64 := (window.zip c).foldl (fun acc p => fadd acc (fmul p.1 p.2)) posZero

/-- The clamp range of R111. -/
def clamp16 (z : Int) : Int := max (-32768) (min 32767 z)

/-- Channel 0 is silent: both bytes of every channel-0 sample are 0 (R174). -/
def silent (bs : RawBlock) : Prop := ∀ i : Nat, i % 4 < 2 → bs.getD i 0#8 = 0#8

end Sys2Proof.Machine
end

