-- ==== Sys2Proof/Certificates/Slice0/Obligations.lean ====
section
/-! DEFINITION. The statements for the provers, each about the machine as the spec's numbered rules describe it. -/

open Sys2Proof
open Sys2Proof.Machine

/-! ## Requests and steps -/

/-- R67, R72: the operation read back from an operation's (OPSEL, operands) pair is that operation, at every value of its operands. -/
def Obligations.DecodeInvertsEncode : Prop := ∀ i : Instr, decode (encode i) = .ok i

/-- R67, R70: each request has at most one meaning, and none but the encodings decode. -/
def Obligations.OnlyEncodingsDecode : Prop :=
  ∀ (r : OpRequest) (i : Instr), decode r = .ok i ↔ r = encode i

/-- R67: the select codes 000 to 110 select the seven operations in the order of the map, and 111 none. That a table word delivers empty
operands is the model's choice (log entry 9, DESIGN CHOICE). -/
def Obligations.SelectCodesOfTheOperationMap : Prop :=
  (List.range 8).map (decodeTableWord 8) =
    [some .rst, some (.dec []), some (.qdm []), some (.fir []), some (.amp []), some (.enc [] []), some (.proc []), none]

/-- R70 (a), R192 (log entry 7): the reserved code is refused whatever its operands are, and the step that turns the request away changes
nothing but the request and the reply. -/
def Obligations.ReservedCodeIsTurnedAway : Prop :=
  ∀ (o : Operands) (s : State) (rest : List Request),
    decode ⟨0b111#3, o⟩ = .error .reservedOp ∧
    (s.resetReq = false → s.running = false → s.offered = none → s.requests = .op ⟨0b111#3, o⟩ :: rest →
      step s = .next { s with requests := rest, reply := .refused .reservedOp })

/-- R11, R67: when the oldest request decodes to `i` (and the reset request line is clear and no loop is running), the step is `exec i`, the
request taken off; before every `i` but `RST` a waiting output block is handed to a ready sink, and an `RST` runs also while a loop is
running (R169, R193 (c)). A refusal of R192 leaves that state as it is and is reported. The request that `withFetchWord` places is run so.
The model's readings and choices here: the waiting block and its hand-over before the request, in the same step (log entry 5, DEDUCED; log
entry 11, DESIGN CHOICE); that a stage operation requested while the block still waits is held back, its request staying the oldest (R45,
R47; log entry 21, DEDUCED); that the machine goes on after a refusal (log entry 7, DEDUCED); the request `withFetchWord` places, with empty
operands (log entry 9, DESIGN CHOICE). -/
def Obligations.StepRunsTheDecodedRequest : Prop :=
  (∀ (s : State) (r : OpRequest) (rest : List Request) (i : Instr),
    s.resetReq = false → s.running = false → s.requests = .op r :: rest → decode r = .ok i → i ≠ .rst →
    step s =
      if heldBack i (takeOffered s) then .next (takeOffered s) else
      match exec i ((takeOffered s).setRequests rest) with
      | .next t => .next t
      | .fault f => .fault f
      | .refused q =>
        if turnedAway q then .next (((takeOffered s).setRequests rest).setReply (.refused q)) else .refused q) ∧
  (∀ (s : State) (r : OpRequest) (rest : List Request), s.resetReq = false → s.requests = .op r :: rest → decode r = .ok .rst →
    step s = exec .rst (s.setRequests rest)) ∧
  ∀ (s : State) (n w : Nat) (i : Instr) (t : State), s.offered = none → decodeTableWord n w = some i → heldBack i s = false →
    exec i ((s.setResetReq false).setRunning false) = .next t → step (s.withFetchWord n w) = .next t

/-- R169, R193 (c), R196, R220: a reset request, by its line or as the `RST` that is the oldest request, overrides everything else the host
asks for, a block in progress (its sink ready or not) and a loop included. The model's readings and choices here: the line is a field that
the step clears (log entry 4, DESIGN CHOICE); the block in progress is the offered block (log entry 5, DEDUCED); the loop flag stays, and
the reply is emptied (log entry 10, DESIGN CHOICE); the line is served before the requests, of which the oldest is the one made now (log
entry 11, DESIGN CHOICE). -/
def Obligations.ResetRequestOverridesEverything : Prop :=
  (∀ s : State, s.resetReq = true →
    step s = .next { s with
      resetReq := false, prev := posZero, hist := Vector.replicate 27 posZero, fault := false, seq := .idle,
      offered := none, reply := .none }) ∧
  ∀ (s : State) (rest : List Request), s.resetReq = false → s.requests = .op (encode .rst) :: rest →
    step s = .next { s with
      requests := rest, prev := posZero, hist := Vector.replicate 27 posZero, fault := false, seq := .idle,
      offered := none, reply := .none }

/-- R204, U17: with nothing asked for, whether or not a block waits for a sink that is not ready, and while the loop waits for the source or
for the sink, a step changes nothing. That a wait is such a step, and that a reset is requested by the line or by an oldest `RST`, are the
model's (log entry 11); the waiting block is the offered block (log entry 5). -/
def Obligations.WaitingChangesNothing : Prop :=
  ∀ s : State, resetWanted s = false →
    (s.running = false → (s.offered = none ∨ s.sinkReady = false) → s.requests = [] → step s = .next s) ∧
    (s.running = true → s.stop = false → s.seq ≠ .busy → s.offered = none → s.source = [] → step s = .next s) ∧
    (s.running = true → s.seq = .busy → s.offered.isSome = true → s.sinkReady = false → step s = .next s)

/-- R73, R170: a `RUN` that is the oldest request starts the loop: the request is taken off, the loop runs from then on, and the request
itself does nothing else to the block. The model's readings and choices here: it starts the loop whatever `SEQ` and `FAULT` are, and it empties
the reply (both log entry 8, DESIGN CHOICE); a waiting block, which is the offered one (log entry 5, DEDUCED), goes to a ready sink first, in
the same step (log entry 11, DESIGN CHOICE). -/
def Obligations.RunRequestStartsTheLoop : Prop :=
  ∀ (s : State) (rest : List Request), s.resetReq = false → s.running = false → s.requests = .run :: rest →
    step s = .next { takeOffered s with requests := rest, running := true, reply := .none }

/-- R45, R47, R193 (c): while `SEQ` is BUSY and its block has not been taken by the sink, a step changes no bit of `IN` and `OUT`; and unless a
reset is requested it changes nothing at all but the request, the loop flag and the reply: a stage operation that is requested then waits.
That BUSY is the offered block's wait is the model's reading (log entry 5, DEDUCED), and so is that the stage operations wait (log entry 21,
DEDUCED). -/
def Obligations.NothingElseActsDuringABlock : Prop :=
  ∀ s t : State, s.seq = .busy → (s.offered = none ∨ s.sinkReady = false) → step s = .next t →
    t.inp = s.inp ∧ t.out = s.out ∧
    (resetWanted s = false → t = { s with requests := t.requests, running := t.running, reply := t.reply })

/-! ## RST -/

/-- R168: the effect of `RST`, with everything it leaves alone (of the block in progress, R169, the reply and the loop flag it says nothing),
and that no other operation leaves `FAULT = 1` or `SEQ = STOPPED`. -/
def Obligations.RstRestoresTheResetValues : Prop :=
  ∀ s : State,
    (∃ t, exec .rst s = .next t ∧
      t = { s with
        prev := posZero, hist := Vector.replicate 27 posZero, fault := false, seq := .idle, offered := t.offered, reply := t.reply,
        running := t.running }) ∧
    ∀ (i : Instr) (t : State), exec i s = .next t →
      (s.fault = true ∧ t.fault = false) ∨ (s.seq = .stopped ∧ t.seq ≠ .stopped) → i = .rst

/-- R31: the state after reset, the machine's own and the one `RST` leaves: `PREV` and every `H[j]` `+0.0`, `FAULT` 0, `SEQ` IDLE; `C` and `G`
keep their values. -/
def Obligations.ResetStateValues : Prop :=
  (State.reset.prev = 0x0000000000000000#64 ∧ (∀ j : Fin 27, State.reset.hist[j] = 0x0000000000000000#64) ∧
    State.reset.fault = false ∧ State.reset.seq = .idle) ∧
  ∀ s : State, ∃ t, exec .rst s = .next t ∧ t.prev = 0x0000000000000000#64 ∧ (∀ j : Fin 27, t.hist[j] = 0x0000000000000000#64) ∧
    t.fault = false ∧ t.seq = .idle ∧ t.coeff = s.coeff ∧ t.gain = s.gain

/-- R4, R5, R24, R65: the gain after reset is the reference value 200.0 and the coefficient table, whatever its open values are, is
well-formed. The values a reset state holds are the configured ones (log entries 1, 2). -/
def Obligations.ResetParametersWellFormed : Prop :=
  State.reset.gain = 0x4069000000000000#64 ∧ gainWellFormed State.reset.gain = true ∧ coeffWellFormed State.reset.coeff = true

/-- R169: a reset while a block is in progress, which the model holds as the offered block (log entry 5): no output block is delivered for it, then or later, and the state is that of R168. -/
def Obligations.RstAbandonsTheBlockInProgress : Prop :=
  ∀ s : State, s.seq = .busy →
    ∃ t, exec .rst s = .next t ∧ t.sink = s.sink ∧ t.offered = none ∧ takeOffered t = t ∧ t.seq = .idle ∧ t.fault = false ∧
      t.prev = posZero ∧ t.hist = Vector.replicate 27 posZero

/-! ## DEC -/

/-- R100, R103: `DEC` of a block of whole frames completes and gives the two streams, frame `i`'s samples at offsets `4i` and `4i + 2`, each
sign-extended and divided by 32768.0; nothing else changes but the input buffer `IN` (what it holds: `DeliveredBlockIsTheInput`). It is
so with `FAULT = 1` too: R100 puts no condition on it, and the last sentence of R195 is read as said of `PROC` (log entry 18, DEDUCED). -/
def Obligations.DecGivesTheTwoStreams : Prop :=
  ∀ (s : State) (bs : RawBlock), bs.length % 4 = 0 →
    ∃ s0 s1 t, exec (.dec bs) s = .next t ∧ t = { s with inp := t.inp, reply := .streams s0 s1 } ∧
      s0.length = bs.length / 4 ∧ s1.length = bs.length / 4 ∧
      ∀ i, i < bs.length / 4 →
        s0[i]? = some (fdiv (i2f (sampleAt bs (4 * i)).toInt) 0x40E0000000000000#64) ∧
        s1[i]? = some (fdiv (i2f (sampleAt bs (4 * i + 2)).toInt) 0x40E0000000000000#64)

/-- R101: a length that is no multiple of 4 raises `MalformedBlock(LEN)`, with no stream; length 0 passes and gives two empty streams. It is
so with `FAULT = 1` too: R100 and R101 put no condition on it, and the last sentence of R195, that no operation that could raise an exception
is then accepted, is read as said of `PROC` (log entry 18, DEDUCED). What `IN` holds: `DeliveredBlockIsTheInput`. -/
def Obligations.DecChecksTheLengthFirst : Prop :=
  (∀ (s : State) (bs : RawBlock), bs.length % 4 ≠ 0 →
    ∃ t, exec (.dec bs) s = .next t ∧ t = { s with inp := t.inp, reply := .malformedBlock 1 bs.length }) ∧
  ∀ s : State, ∃ t, exec (.dec []) s = .next t ∧ t = { s with inp := t.inp, reply := .streams [] [] }

/-- R40, R8: the operand block of `DEC`, malformed or not, and of a `PROC` that is accepted, is the current `IN` from then on: its length, and
each of its bytes. That the operand becomes the block `IN` the host reads back is the model's reading (log entry 13, DEDUCED), and so is that `DEC` completes with `FAULT = 1` too,
the last sentence of R195 being read as said of `PROC` (log entry 18, DEDUCED). -/
def Obligations.DeliveredBlockIsTheInput : Prop :=
  ∀ (s : State) (bs : RawBlock),
    (∃ t, exec (.dec bs) s = .next t ∧ t.inp = Block.ofBytes bs) ∧
    (∀ t, exec (.proc bs) s = .next t → t.inp = Block.ofBytes bs) ∧
    (Block.ofBytes bs).wf = true ∧ (Block.ofBytes bs).len = bs.length ∧ ∀ a : Nat, (Block.ofBytes bs).readByte a = bs[a]?

/-- R102: `dec1(z)` is exactly `z / 32768` for every sample, the same as multiplying by `1/32768`, finite, `+0.0` only for 0 and otherwise
normal (hence never `-0.0`), in `[-1.0, 32767/32768]`, and different samples give different values. -/
def Obligations.DecodedValueIsExact : Prop :=
  ∀ v w : Sample,
    isFinite (dec1 (sext16 v)) = true ∧ scaledInt (dec1 (sext16 v)) * 32768 = v.toInt * 2 ^ 1074 ∧
    dec1 (sext16 v) = fmul (i2f (sext16 v)) 0x3F00000000000000#64 ∧
    (dec1 (sext16 v) = 0x0000000000000000#64 ∨ expField (dec1 (sext16 v)) ≠ 0) ∧
    -(2 ^ 1074) ≤ scaledInt (dec1 (sext16 v)) ∧ scaledInt (dec1 (sext16 v)) * 32768 ≤ 32767 * 2 ^ 1074 ∧
    (dec1 (sext16 v) = dec1 (sext16 w) → v = w)

/-! ## ENC -/

/-- R107 to R112: what one element encodes to. A finite value is multiplied by 32768 exactly and truncated toward zero; on the right 32768 is
then added; both are clamped. Infinities saturate; a NaN encodes to nothing. -/
def Obligations.EncodingTruncatesBiasesAndClamps : Prop :=
  ∀ v : F64,
    (isFinite v = true →
      encL v = some (clamp16 (Int.tdiv (scaledInt v * 32768) (2 ^ 1074))) ∧
      encR v = some (clamp16 (Int.tdiv (scaledInt v * 32768) (2 ^ 1074) + 32768))) ∧
    (isInf v = true →
      encL v = some (if signBit v then -32768 else 32767) ∧ encR v = some (if signBit v then -32768 else 32767)) ∧
    (isNaN v = true → encL v = none ∧ encR v = none)

/-- R106, R114: `ENC` of two sequences of one length with no NaN completes with an output block of `4 * L` bytes whose sample `2i` is the left
integer of element `i` and sample `2i + 1` the right one; no register changes, and `IN` is not touched. -/
def Obligations.EncStoresEveryFrame : Prop :=
  ∀ (s : State) (left right : List F64), left.length = right.length → left.any isNaN = false → right.any isNaN = false →
    ∃ out, exec (.enc left right) s = .next { s with out := out, reply := .block out.bytes } ∧
      out.wf = true ∧ out.len = 4 * left.length ∧
      ∀ (i : Nat) (l r : F64), left[i]? = some l → right[i]? = some r →
        ∃ zl zr, encL l = some zl ∧ encR r = some zr ∧
          memRead2 out (4 * i) = some (BitVec.ofInt 16 zl) ∧ memRead2 out (4 * i + 2) = some (BitVec.ofInt 16 zr)

/-- R106, R113, R192: the two operand conditions `ENC` refuses. Where both hold the rules give no order; that the lengths come first is the
model's choice (log entry 20, DESIGN CHOICE). -/
def Obligations.EncRefusesWhatHasNoMeaning : Prop :=
  ∀ (s : State) (left right : List F64),
    (left.length ≠ right.length → exec (.enc left right) s = .refused .encodeLengthMismatch) ∧
    (left.length = right.length → (left.any isNaN = true ∨ right.any isNaN = true) →
      exec (.enc left right) s = .refused .encodeNaN)

/-- R115: the codec identities over all samples: the left channel gives the sample back; the right one gives 32767 from -1 up and the sample
plus 32768 below. -/
def Obligations.CodecRoundTrip : Prop :=
  ∀ v : Sample,
    encL (dec1 (sext16 v)) = some v.toInt ∧
    encR (dec1 (sext16 v)) = some (if -1 ≤ v.toInt then 32767 else v.toInt + 32768)

/-- R174: how the two output channels of one value are related: with a left sample of -1 or more the right one is 32767; with a left sample
that was not clamped below, the left sample plus 32768; with one that was, negative. -/
def Obligations.RightChannelFollowsLeft : Prop :=
  ∀ (v : F64) (q : ExtInt) (zl zr : Int), quantise v = some q → encL v = some zl → encR v = some zr →
    (-1 ≤ zl → zr = 32767) ∧ (zl ≤ -2 → q = .int zl → zr = zl + 32768) ∧ (zl ≤ -2 → q ≠ .int zl → zl = -32768 ∧ zr < 0) ∧
    -32768 ≤ zl ∧ zl ≤ 32767 ∧ -32768 ≤ zr ∧ zr ≤ 32767

/-- R73, R115: `ROUNDTRIP` of a block of whole frames gives every left sample back, and every right sample biased and clamped; of any other
block it is the exception of its `DEC`. The model's readings here: the operand block is `IN` afterwards, and the result `OUT` (log entry 13,
DEDUCED); `DEC` and `ENC` complete with `FAULT = 1` too, the last sentence of R195 being read as said of `PROC` (log entry 18, DEDUCED). -/
def Obligations.RoundTripOfABlock : Prop :=
  ∀ (s : State) (bs : RawBlock),
    (bs.length % 4 = 0 →
      ∃ out rep, roundTrip bs s = .next { s with inp := Block.ofBytes bs, out := out, reply := rep } ∧ out.len = bs.length ∧
        ∀ i, i < bs.length / 4 →
          memRead2 out (4 * i) = some (sampleAt bs (4 * i)) ∧
          memRead2 out (4 * i + 2) = some (BitVec.ofInt 16
            (if -1 ≤ (sampleAt bs (4 * i + 2)).toInt then 32767 else (sampleAt bs (4 * i + 2)).toInt + 32768))) ∧
    (bs.length % 4 ≠ 0 → roundTrip bs s = exec (.dec bs) s)

/-! ## QDM -/

/-- R120 to R122: `QDM` completes on every sequence; output `i` is the product of the sample before (for the first, `PREV` on entry) and the
sample; `PREV` ends as the last sample; nothing else changes. -/
def Obligations.QdmMultipliesByThePreviousSample : Prop :=
  ∀ (s : State) (x : List F64),
    ∃ y, exec (.qdm x) s = .next { s with prev := x.getLastD s.prev, reply := .samples y } ∧
      y.length = x.length ∧
      ∀ i, i < x.length → y[i]? = some (fmul (if i = 0 then s.prev else x.getD (i - 1) posZero) (x.getD i posZero))

/-- R123: a sequence given as one call or as two gives the same outputs and the same final `PREV`, bit for bit. -/
def Obligations.QdmIsContinuousAcrossCalls : Prop :=
  ∀ (s : State) (a b : List F64),
    ∃ ya yb p q, exec (.qdm a) s = .next { s with prev := p, reply := .samples ya } ∧
      exec (.qdm b) { s with prev := p, reply := .samples ya } = .next { s with prev := q, reply := .samples yb } ∧
      exec (.qdm (a ++ b)) s = .next { s with prev := q, reply := .samples (ya ++ yb) }

/-- R124 (b), (c): the product of two decoded samples is exact and lies in `[-32767/32768, 1.0]`. -/
def Obligations.DemodulatedProductIsExact : Prop :=
  ∀ v w : Sample,
    isFinite (fmul (dec1 (sext16 v)) (dec1 (sext16 w))) = true ∧
    scaledInt (fmul (dec1 (sext16 v)) (dec1 (sext16 w))) * 2 ^ 30 = v.toInt * w.toInt * 2 ^ 1074 ∧
    -(32767 * 2 ^ 1074) ≤ scaledInt (fmul (dec1 (sext16 v)) (dec1 (sext16 w))) * 32768 ∧
    scaledInt (fmul (dec1 (sext16 v)) (dec1 (sext16 w))) ≤ 2 ^ 1074

/-- R124 (a): the first sample after reset meets `PREV = +0.0`: the output is a zero of the sample's sign if it is finite, and a NaN if not. -/
def Obligations.FirstDemodulatedSampleIsAZero : Prop :=
  ∀ (s : State) (x : F64), s.prev = posZero →
    ∃ y, exec (.qdm [x]) s = .next { s with prev := x, reply := .samples [y] } ∧
      (isFinite x = true → y = if signBit x then 0x8000000000000000#64 else 0x0000000000000000#64) ∧
      (isFinite x = false → isNaN y = true)

/-! ## FIR -/

/-- R130 to R134: `FIR` completes on every sequence; output `i` is the ordered sum over the 27 samples that end with sample `i`, earlier calls'
samples in `H` first; `H` ends as the last 27 samples; nothing else changes. -/
def Obligations.FirSumsTheWindowInOrder : Prop :=
  ∀ (s : State) (x : List F64),
    ∃ y h, exec (.fir x) s = .next { s with hist := h, reply := .samples y } ∧
      h.toList = (s.hist.toList ++ x).drop x.length ∧ y.length = x.length ∧
      ∀ i, i < x.length →
        y[i]? = some (orderedSum (((s.hist.toList ++ x).drop (i + 1)).take 27) s.coeff.toList)

/-- R135: a sequence given as one call or as two gives the same outputs and the same final `H`, bit for bit. -/
def Obligations.FirIsContinuousAcrossCalls : Prop :=
  ∀ (s : State) (a b : List F64),
    ∃ ya yb h k, exec (.fir a) s = .next { s with hist := h, reply := .samples ya } ∧
      exec (.fir b) { s with hist := h, reply := .samples ya } = .next { s with hist := k, reply := .samples yb } ∧
      exec (.fir (a ++ b)) s = .next { s with hist := k, reply := .samples (ya ++ yb) }

/-- R136: from a zero history and with a well-formed table, a unit impulse gives back the table, newest weight first, then zeros; a zero
coefficient of either sign comes back as `+0.0`; by the symmetry it is also the table from `C[0]` on. -/
def Obligations.FirImpulseResponseIsTheTable : Prop :=
  ∀ (s : State) (n : Nat), s.hist = Vector.replicate 27 posZero → coeffWellFormed s.coeff = true →
    ∃ y h, exec (.fir (0x3FF0000000000000#64 :: List.replicate n posZero)) s =
        .next { s with hist := h, reply := .samples y } ∧
      y.length = n + 1 ∧
      (∀ j, j ≤ n →
        y[j]? = some (if isZero (s.coeff.toList.getD (26 - j) posZero) || decide (26 < j) then posZero
          else s.coeff.toList.getD (26 - j) posZero)) ∧
      ∀ j, j ≤ 26 → s.coeff.toList.getD (26 - j) posZero = s.coeff.toList.getD j posZero

/-- R139 (d): a NaN sample makes the outputs NaN for the 27 steps it stays in the window. -/
def Obligations.NanStaysInTheWindowFor27Outputs : Prop :=
  ∀ (s : State) (x : List F64) (i : Nat), isNaN (x.getD i posZero) = true →
    ∃ y h, exec (.fir x) s = .next { s with hist := h, reply := .samples y } ∧
      ∀ k v, k < 27 → y[i + k]? = some v → isNaN v = true

/-! ## AMP -/

/-- R150 to R152: `AMP` completes on every sequence: one product with `G` a sample, unclamped; nothing else changes. -/
def Obligations.AmpMultipliesByTheGain : Prop :=
  ∀ (s : State) (x : List F64),
    ∃ y, exec (.amp x) s = .next { s with reply := .samples y } ∧ y.length = x.length ∧
      ∀ i, i < x.length → y[i]? = some (fmul (x.getD i posZero) s.gain)

/-! ## PROC -/

/-- R161, R193 (a): when `PROC` is not accepted: `FAULT` first, then `SEQ`, both before the length. That it stops by name in BUSY is the model's
way to give no step (log entry 12). -/
def Obligations.ProcIsRefusedWhenNotAccepting : Prop :=
  ∀ (s : State) (bs : RawBlock),
    (s.fault = true → exec (.proc bs) s = .refused .streamDead) ∧
    (s.fault = false → s.seq = .stopped → exec (.proc bs) s = .refused .runStopped) ∧
    (s.fault = false → s.seq = .busy → exec (.proc bs) s = .refused .procWhileBusy)

/-- R164, R194, R195: an accepted `PROC` of a block of no whole number of frames takes `MalformedBlock`: `FAULT` set, `SEQ` IDLE, the report to
the host, everything else but the input buffer as it was, and every later `PROC` refused. -/
def Obligations.ProcTakesMalformedBlock : Prop :=
  ∀ (s : State) (bs : RawBlock), s.accepting = true → bs.length % 4 ≠ 0 →
    ∃ t, exec (.proc bs) s = .next t ∧
      t = { s with inp := t.inp, fault := true, seq := .idle, reply := .malformedBlock 1 bs.length } ∧
      ∀ cs, exec (.proc cs) t = .refused .streamDead

/-- R190: `MalformedBlock` is raised by `DEC` and by an accepted `PROC`, on a length that is no multiple of 4, with cause code 1 and that
length; by nothing else. `DEC` raises it with `FAULT = 1` too: R100 and R101 put no condition on it, and the last sentence of R195 is read as
said of `PROC` (log entry 18, DEDUCED). -/
def Obligations.MalformedBlockIsTheOnlyException : Prop :=
  (∀ (i : Instr) (s t : State) (c n : Nat), exec i s = .next t → t.reply = .malformedBlock c n →
    c = 1 ∧ n % 4 ≠ 0 ∧ ∃ bs : RawBlock, bs.length = n ∧ (i = .dec bs ∨ i = .proc bs)) ∧
  ∀ (s : State) (bs : RawBlock), bs.length % 4 ≠ 0 →
    (∃ t, exec (.dec bs) s = .next t ∧ t.reply = .malformedBlock 1 bs.length) ∧
    (s.accepting = true → ∃ t, exec (.proc bs) s = .next t ∧ t.reply = .malformedBlock 1 bs.length)

/-- R160, R162: an accepted `PROC` of whole frames, with a sink that can take the block, is the stage operations in order: `DEC`, `QDM` on
channel 0, `FIR`, `AMP`, `ENC` of the result into both channels; `PROC` completes exactly when that `ENC` does, with its output block at the sink.
That `IN` and `OUT` hold the operand and the result afterwards is the model's reading (log entry 13, DEDUCED), and that the reply is emptied,
the result having gone to the sink, its choice (log entry 4, DESIGN CHOICE). -/
def Obligations.ProcIsTheStagesInOrder : Prop :=
  ∀ (s : State) (bs : RawBlock), s.accepting = true → s.sinkReady = true → bs.length % 4 = 0 →
    ∃ (s0 s1 d f a : List F64) (p : F64) (h : Vector F64 27) (t1 t2 t3 t4 : State),
      exec (.dec bs) s = .next t1 ∧ t1.reply = .streams s0 s1 ∧
      exec (.qdm s0) t1 = .next t2 ∧ t2.reply = .samples d ∧ t2.prev = p ∧
      exec (.fir d) t2 = .next t3 ∧ t3.reply = .samples f ∧ t3.hist = h ∧
      exec (.amp f) t3 = .next t4 ∧ t4.reply = .samples a ∧
      (exec (.enc a a) t4 = .refused .encodeNaN → exec (.proc bs) s = .refused .encodeNaN) ∧
      ∀ t5, exec (.enc a a) t4 = .next t5 →
        exec (.proc bs) s = .next { s with
          prev := p, hist := h, inp := Block.ofBytes bs, out := t5.out, sink := s.sink ++ [t5.out.bytes],
          offered := none, reply := .none }

/-- R26, R160, R172: with a sink that cannot take the block yet, the same `PROC` ends with `SEQ` BUSY and the same output block offered; once
the sink is ready the block is handed over whole and the state is the one a ready sink would have left. What BUSY waits for
is the model's reading (log entry 5). -/
def Obligations.ProcWaitsForTheSink : Prop :=
  ∀ (s t : State) (bs : RawBlock), s.accepting = true → s.sinkReady = true → s.offered = none → bs.length % 4 = 0 →
    exec (.proc bs) s = .next t →
    ∃ u, exec (.proc bs) { s with sinkReady := false } = .next u ∧ u.seq = .busy ∧ u.sink = s.sink ∧
      u.offered = some t.out.bytes ∧ takeOffered { u with sinkReady := true } = t

/-- R162, R163, R173: what an accepted `PROC` leaves: an output block as long as the input, and `PREV` and `H` as the rule gives them in terms of
the decoded stream and the demodulator's outputs. That `PREV` and `H` are already these while the block waits for a sink that is not ready,
with `SEQ` BUSY, is the model's reading (log entry 5, DEDUCED). -/
def Obligations.ProcLeavesTheCarriedState : Prop :=
  ∀ (s t : State) (bs : RawBlock), s.accepting = true → bs.length % 4 = 0 → exec (.proc bs) s = .next t →
    ∃ s0 d : List F64, s0.length = bs.length / 4 ∧ d.length = bs.length / 4 ∧
      (∀ i, i < bs.length / 4 → s0[i]? = some (dec1 (sext16 (sampleAt bs (4 * i))))) ∧
      (∀ i, i < bs.length / 4 → d[i]? = some (fmul (if i = 0 then s.prev else s0.getD (i - 1) posZero) (s0.getD i posZero))) ∧
      t.prev = s0.getLastD s.prev ∧ t.hist.toList = (s.hist.toList ++ d).drop d.length ∧
      t.out.len = bs.length ∧ t.out.wf = true ∧ t.fault = false ∧ (s.sinkReady = true → t.seq = .idle) ∧
      t.coeff = s.coeff ∧ t.gain = s.gain

/-- R167: blocks processed one after the other give, byte for byte, the output of one block that is their concatenation, and the same final
`PREV` and `H`. -/
def Obligations.StreamIsContinuousAcrossBlocks : Prop :=
  ∀ (s t : State) (blocks : List RawBlock), s.accepting = true → s.sinkReady = true →
    (∀ b ∈ blocks, b.length % 4 = 0) → procAll blocks s = .next t →
    ∃ (u : State) (outs : List RawBlock), exec (.proc blocks.flatten) s = .next u ∧
      t.sink = s.sink ++ outs ∧ outs.length = blocks.length ∧ u.sink = s.sink ++ [outs.flatten] ∧
      u.prev = t.prev ∧ u.hist = t.hist

/-- R162: no byte of the output and no bit of the state depends on the channel-1 samples: two blocks of one length with the same channel 0 give
the same outcome, but for the input buffer itself. That this holds the operand block afterwards is the model's reading (log entry 13,
DEDUCED). -/
def Obligations.ChannelOneIsIgnored : Prop :=
  ∀ (s : State) (b b' : RawBlock), b.length = b'.length → (∀ i : Nat, i % 4 < 2 → b[i]? = b'[i]?) →
    exec (.proc b') s =
      match exec (.proc b) s with
      | .next t => .next { t with inp := Block.ofBytes b' }
      | .fault f => .fault f
      | .refused r => .refused r

/-- R166: within the bounds on the parameters and the data registers, `PROC` of every block of whole frames completes (no NaN meets `ENC`), and
leaves the data registers within their bounds again. A table that is symmetric only up to the sign of a zero is left out with those that are
not well-formed (log entry 19, DESIGN CHOICE). -/
def Obligations.ProcCompletesWithinTheBounds : Prop :=
  ∀ (s : State) (bs : RawBlock), s.accepting = true → bs.length % 4 = 0 → s.parametersBounded = true → s.dataBounded = true →
    ∃ t, exec (.proc bs) s = .next t ∧ t.parametersBounded = true ∧ t.dataBounded = true ∧
      (amplified s ((List.range (bs.length / 4)).map fun i => dec1 (sext16 (sampleAt bs (4 * i))))).all isFinite = true

/-- R165: running every stage frame by frame gives, bit for bit, what running stage after stage over the whole block gives. -/
def Obligations.FrameStreamingAgreesWithStaging : Prop :=
  ∀ (s : State) (s0 : List F64),
    streamed s.coeff s.gain s.prev s.hist s0 = (amplified s s0, (afterStages s s0).prev, (afterStages s s0).hist)

/-- R223: whatever state a block starts from, with the same parameters its output from frame 27 on is the same. -/
def Obligations.CarriedStateFadesAfter27Frames : Prop :=
  ∀ (s s' t t' : State) (bs : RawBlock), s.coeff = s'.coeff → s.gain = s'.gain → bs.length % 4 = 0 →
    exec (.proc bs) s = .next t → exec (.proc bs) s' = .next t' →
    ∀ j, 108 ≤ j → t.out.bytes[j]? = t'.out.bytes[j]?

/-- R174, R139 (b): a silent channel 0 from a zero state gives left 0 and right 32767 in every frame. -/
def Obligations.SilenceEncodesToTheBias : Prop :=
  ∀ (s : State) (bs : RawBlock), s.accepting = true → bs.length % 4 = 0 → silent bs → s.prev = posZero →
    s.hist = Vector.replicate 27 posZero → coeffWellFormed s.coeff = true → gainWellFormed s.gain = true →
    ∃ t, exec (.proc bs) s = .next t ∧
      t.out.bytes = (List.replicate (bs.length / 4) [0x00#8, 0x00#8, 0xFF#8, 0x7F#8]).flatten

/-! ## RUN -/

/-- R170, R193 (b): between blocks the stop wins: `SEQ` goes to STOPPED, the loop ends, the block that has arrived is not accepted, and `PREV` and
`H` stay. No reset is requested, by its line or by an oldest `RST` (R193 (c)). -/
def Obligations.StopWinsBetweenBlocks : Prop :=
  ∀ s : State, resetWanted s = false → s.running = true → s.stop = true → s.seq = .idle → s.offered = none →
    step s = .next { s with seq := .stopped, running := false }

/-- R170, R228: a stop asserted while a block is in progress takes effect only after that block's output has been delivered whole. The model's
readings and choices here: the block in progress is the offered block that waits (log entry 5, DEDUCED); the wait is a step that changes
nothing, and one step both hands the block over and honours the stop (log entry 11, DESIGN CHOICE). -/
def Obligations.StopIsNotSeenInsideABlock : Prop :=
  ∀ (s : State) (b : RawBlock), resetWanted s = false → s.running = true → s.stop = true → s.seq = .busy → s.offered = some b →
    (s.sinkReady = false → step s = .next s) ∧
    (s.sinkReady = true →
      step s = .next { s with sink := s.sink ++ [b], offered := none, seq := .stopped, running := false })

/-- R170: between blocks with no stop and no reset requested, a turn of the loop is `PROC` of the next block from the source, which it takes;
`MalformedBlock` ends the loop. -/
def Obligations.LoopProcessesTheNextBlock : Prop :=
  ∀ (s t : State) (b : RawBlock) (rest : List RawBlock), resetWanted s = false → s.running = true → s.stop = false →
    s.seq = .idle → s.offered = none → s.source = b :: rest → exec (.proc b) s = .next t →
    step s = .next { t with source := rest, running := !t.fault }

/-! ## Invariants and whole-machine rules -/

/-- R26, R31: the reset state meets the invariant of `StepKeepsTheInvariant`. R31 gives `SEQ` IDLE; the rest is the model's: empty address
spaces (log entry 3, DESIGN CHOICE), a sink that has taken nothing (log entry 4, DESIGN CHOICE), and no offered block, which is what BUSY
would mean (log entry 5, DEDUCED). -/
def Obligations.ResetMeetsTheInvariant : Prop := State.reset.Inv = true

/-- R26, R40, R45: every step keeps the invariant: both address spaces canonical, `SEQ` BUSY exactly while an output block waits for the sink, and
every block that is offered or at the sink a whole number of frames. That BUSY is this wait is the model's reading (log entry 5). -/
def Obligations.StepKeepsTheInvariant : Prop :=
  ∀ s t : State, s.Inv = true → step s = .next t → t.Inv = true

/-- R44: no step meets an access outside a block: the machine never faults. -/
def Obligations.NoStepFaults : Prop := ∀ (s : State) (f : Fault), step s ≠ .fault f

/-- R23, R24, R49: no step changes the coefficient table or the gain. -/
def Obligations.StepsNeverWriteTheParameters : Prop :=
  ∀ s t : State, step s = .next t → t.coeff = s.coeff ∧ t.gain = s.gain

/-- R27, R168, R220: `FAULT` once set stays set, and `SEQ` once STOPPED stays STOPPED, over every step but a reset: the reset request, or an `RST`
that is the oldest request, also while a loop is running. -/
def Obligations.FaultAndStopLastUntilReset : Prop :=
  ∀ s t : State, s.Inv = true → step s = .next t →
    (s.fault = true ∧ t.fault = false) ∨ (s.seq = .stopped ∧ t.seq ≠ .stopped) →
    s.resetReq = true ∨ ∃ rest, s.requests = .op (encode .rst) :: rest

/-- R45, R47: what the sink has taken is never changed; a step only adds whole blocks after it. -/
def Obligations.SinkOnlyGrows : Prop :=
  ∀ s t : State, s.Inv = true → step s = .next t → ∃ more, t.sink = s.sink ++ more ∧ ∀ b ∈ more, b.length % 4 = 0

/-- R20, R25: which operations write which register. -/
def Obligations.RegistersHaveTheirOwners : Prop :=
  ∀ (i : Instr) (s t : State), exec i s = .next t →
    (t.prev ≠ s.prev → i = .rst ∨ (∃ x, i = .qdm x) ∨ ∃ b, i = .proc b) ∧
    (t.hist ≠ s.hist → i = .rst ∨ (∃ x, i = .fir x) ∨ ∃ b, i = .proc b) ∧
    (t.fault ≠ s.fault ∨ t.seq ≠ s.seq → i = .rst ∨ ∃ b, i = .proc b)

/-- R20, R29, R40, R221: what each operation leaves of the two address spaces and of the host's side: every byte of `IN` but by `DEC` and `PROC`,
every byte of `OUT` but by `ENC` and `PROC`, the sink but by `PROC`, the host's inputs always. That `RST` leaves the loop flag, so that a
reset does not end a `RUN`, is the model's choice (log entry 10, DESIGN CHOICE). -/
def Obligations.OperationsLeaveTheRestAlone : Prop :=
  ∀ (i : Instr) (s t : State), exec i s = .next t →
    ((∀ b, i ≠ .dec b ∧ i ≠ .proc b) → ∀ a, t.inp.readByte a = s.inp.readByte a) ∧
    ((∀ b l r, i ≠ .enc l r ∧ i ≠ .proc b) → ∀ a, t.out.readByte a = s.out.readByte a) ∧
    ((∀ b, i ≠ .proc b) → t.sink = s.sink) ∧
    t.coeff = s.coeff ∧ t.gain = s.gain ∧ t.sinkReady = s.sinkReady ∧ t.stop = s.stop ∧ t.resetReq = s.resetReq ∧
    t.running = s.running ∧ t.source = s.source ∧ t.requests = s.requests

/-! ## Binary64 -/

/-- R7: the product of finite values is a nearest binary64 value of the exact product, the even one at a tie, infinite exactly from half a unit
above the largest finite value on, with the exclusive-or of the signs. -/
def Obligations.ProductIsCorrectlyRounded : Prop :=
  ∀ a b : F64, isFinite a = true → isFinite b = true →
    isNaN (fmul a b) = false ∧ signBit (fmul a b) = (signBit a != signBit b) ∧
    (isInf (fmul a b) = true ↔ (2 ^ 54 - 1) * 2 ^ 2044 * 2 ^ 1074 ≤ magnitude a * magnitude b) ∧
    (isFinite (fmul a b) = true → ∀ x : F64, isFinite x = true →
      |scaledInt a * scaledInt b - scaledInt (fmul a b) * 2 ^ 1074| ≤ |scaledInt a * scaledInt b - scaledInt x * 2 ^ 1074| ∧
      (scaledInt x ≠ scaledInt (fmul a b) →
        |scaledInt a * scaledInt b - scaledInt (fmul a b) * 2 ^ 1074| = |scaledInt a * scaledInt b - scaledInt x * 2 ^ 1074| →
        fracField (fmul a b) % 2 = 0))

/-- R7: the sum of finite values is a nearest binary64 value of the exact sum, the even one at a tie, infinite exactly from half a unit above the
largest finite value on; an exact zero sum is `+0.0` unless both operands are negative. -/
def Obligations.SumIsCorrectlyRounded : Prop :=
  ∀ a b : F64, isFinite a = true → isFinite b = true →
    isNaN (fadd a b) = false ∧
    (scaledInt a + scaledInt b = 0 → fadd a b = if signBit a && signBit b then 0x8000000000000000#64 else 0x0000000000000000#64) ∧
    (isInf (fadd a b) = true ↔ (2 ^ 54 - 1) * 2 ^ 2044 ≤ (scaledInt a + scaledInt b).natAbs) ∧
    (scaledInt a + scaledInt b ≠ 0 → signBit (fadd a b) = decide (scaledInt a + scaledInt b < 0)) ∧
    (isFinite (fadd a b) = true → ∀ x : F64, isFinite x = true →
      |scaledInt a + scaledInt b - scaledInt (fadd a b)| ≤ |scaledInt a + scaledInt b - scaledInt x| ∧
      (scaledInt x ≠ scaledInt (fadd a b) →
        |scaledInt a + scaledInt b - scaledInt (fadd a b)| = |scaledInt a + scaledInt b - scaledInt x| →
        fracField (fadd a b) % 2 = 0))

/-- R7: what non-finite operands give: a NaN operand, `0 * Inf` and `Inf - Inf` a NaN (which one is free, log entry 6), other infinities, as
either factor and as either addend, the infinity of the sign the rules give. -/
def Obligations.NonFiniteOperandsGiveTheDefaults : Prop :=
  ∀ a b : F64,
    (isNaN a = true ∨ isNaN b = true → isNaN (fmul a b) = true ∧ isNaN (fadd a b) = true) ∧
    (isInf a = true → isZero b = true → isNaN (fmul a b) = true ∧ isNaN (fmul b a) = true) ∧
    (isInf a = true → isInf b = true → signBit a ≠ signBit b → isNaN (fadd a b) = true) ∧
    (isInf a = true → isInf b = true → signBit a = signBit b → fadd a b = a) ∧
    (isInf a = true → isNaN b = false → isZero b = false →
      isInf (fmul a b) = true ∧ signBit (fmul a b) = (signBit a != signBit b) ∧
      isInf (fmul b a) = true ∧ signBit (fmul b a) = (signBit a != signBit b)) ∧
    (isInf a = true → isFinite b = true → fadd a b = a ∧ fadd b a = a)

/-- R65: the patterns of the constants, against the value rule of R64. -/
def Obligations.ConstantPatternsHaveTheirValues : Prop :=
  scaledInt 0x40E0000000000000#64 = 32768 * 2 ^ 1074 ∧ scaledInt 0x3F00000000000000#64 * 32768 = 2 ^ 1074 ∧
  scaledInt 0x4069000000000000#64 = 200 * 2 ^ 1074 ∧ scaledInt 0x3FF0000000000000#64 = 2 ^ 1074 ∧
  scaledInt 0xBFF0000000000000#64 = -(2 ^ 1074) ∧ scaledInt 0x3FE0000000000000#64 * 2 = 2 ^ 1074 ∧
  scaledInt 0x3FF8000000000000#64 * 2 = 3 * 2 ^ 1074 ∧ scaledInt 0x3FEFFFC000000000#64 * 32768 = 32767 * 2 ^ 1074 ∧
  scaledInt 0x0000000000000000#64 = 0 ∧ scaledInt 0x8000000000000000#64 = 0 ∧
  signBit 0x0000000000000000#64 = false ∧ signBit 0x8000000000000000#64 = true
end

