-- ==== Sys2Proof/Laws/Float.lean ====
section
/-! SUPPORT. What the binary64 operations of R7 can do: fields of packed patterns, when a result is NaN, and rounding (monotone against every
representable magnitude, hence exact on representable results). -/

namespace Sys2Proof.Machine

/-! ## Packed patterns -/

/-- The magnitude that bits 62:0 stand for, infinity's included as `2^2098` units. -/
def magLow (low : Nat) : Nat :=
  if low / 2 ^ 52 = 0 then low % 2 ^ 52 else (2 ^ 52 + low % 2 ^ 52) * 2 ^ (low / 2 ^ 52 - 1)

theorem toNat_pack {low : Nat} (neg : Bool) (h : low < 2 ^ 63) : (pack neg low).toNat = (if neg then 2 ^ 63 else 0) + low := by
  cases neg <;> simp [pack] <;> omega

theorem signBit_pack {low : Nat} (neg : Bool) (h : low < 2 ^ 63) : signBit (pack neg low) = neg := by
  unfold signBit
  rw [toNat_pack neg h]
  cases neg <;> simp
  omega

theorem expField_pack {low : Nat} (neg : Bool) (h : low < 2 ^ 63) : expField (pack neg low) = low / 2 ^ 52 := by
  unfold expField
  rw [toNat_pack neg h]
  cases neg <;> · simp; omega

theorem fracField_pack {low : Nat} (neg : Bool) (h : low < 2 ^ 63) : fracField (pack neg low) = low % 2 ^ 52 := by
  unfold fracField
  rw [toNat_pack neg h]
  cases neg <;> simp
  omega

theorem magnitude_pack {low : Nat} (neg : Bool) (h : low < 2 ^ 63) : magnitude (pack neg low) = magLow low := by
  unfold magnitude magLow
  rw [expField_pack neg h, fracField_pack neg h]

theorem isNaN_pack {low : Nat} (neg : Bool) (h : low ≤ infLow) : isNaN (pack neg low) = false := by
  unfold infLow at h
  unfold isNaN
  rw [expField_pack neg (by omega), fracField_pack neg (by omega), Bool.and_eq_false_iff]
  simp only [beq_eq_false_iff_ne, bne_eq_false_iff_eq]
  omega

theorem isFinite_pack {low : Nat} (neg : Bool) (h : low ≤ infLow) : isFinite (pack neg low) = decide (low < infLow) := by
  unfold infLow at h ⊢
  unfold isFinite
  rw [expField_pack neg (by omega)]
  rw [Bool.eq_iff_iff, bne_iff_ne, decide_eq_true_iff]
  omega

theorem isInf_pack {low : Nat} (neg : Bool) (h : low ≤ infLow) : isInf (pack neg low) = decide (low = infLow) := by
  unfold infLow at h ⊢
  unfold isInf
  rw [expField_pack neg (by omega), fracField_pack neg (by omega)]
  rw [Bool.eq_iff_iff, Bool.and_eq_true, beq_iff_eq, beq_iff_eq, decide_eq_true_iff]
  omega

theorem isZero_pack {low : Nat} (neg : Bool) (h : low < 2 ^ 63) : isZero (pack neg low) = decide (low = 0) := by
  unfold isZero
  rw [expField_pack neg h, fracField_pack neg h]
  rw [Bool.eq_iff_iff, Bool.and_eq_true, beq_iff_eq, beq_iff_eq, decide_eq_true_iff]
  omega

/-- Every pattern is its sign and its bits 62:0. -/
theorem pack_low (x : F64) : pack (signBit x) (x.toNat % 2 ^ 63) = x := by
  apply BitVec.eq_of_toNat_eq
  rw [toNat_pack _ (Nat.mod_lt _ (by decide))]
  have := x.isLt
  unfold signBit
  split <;> simp_all
  omega

theorem exists_pack (x : F64) : ∃ low, low < 2 ^ 63 ∧ x = pack (signBit x) low :=
  ⟨_, Nat.mod_lt _ (by decide), (pack_low x).symm⟩

theorem isFinite_iff (x : F64) : isFinite x = true ↔ isNaN x = false ∧ isInf x = false := by
  unfold isFinite isNaN isInf
  by_cases h : fracField x = 0 <;> simp [h]

theorem magnitude_eq_zero_iff (x : F64) : magnitude x = 0 ↔ isZero x = true := by
  unfold magnitude isZero
  by_cases he : expField x = 0 <;> simp [he]

/-! ## NaN results -/

@[simp] theorem isNaN_asNaN (x : F64) : isNaN (asNaN x) = true := by
  unfold asNaN
  split
  · assumption
  · have h1 : (x ||| 0x7FF8000000000000#64).toNat / 2 ^ 52 % 2 ^ 11 = 2047 := by
      have : (x ||| 0x7FF8000000000000#64).extractLsb' 52 11 = 2047#11 := by
        ext i hi
        have hi' : i < 11 := hi
        interval_cases i <;> simp
      simpa [BitVec.extractLsb'_toNat, Nat.shiftRight_eq_div_pow] using congrArg BitVec.toNat this
    have h2 : (x ||| 0x7FF8000000000000#64).toNat % 2 ^ 52 ≠ 0 := by
      intro h
      have h51 : ((x ||| 0x7FF8000000000000#64).toNat % 2 ^ 52).testBit 51 = false := by rw [h]; rfl
      rw [Nat.testBit_mod_two_pow, BitVec.toNat_or, Nat.testBit_or,
        show (0x7FF8000000000000#64).toNat.testBit 51 = true by decide] at h51
      simp at h51
    unfold isNaN expField fracField
    rw [h1, Bool.and_eq_true, bne_iff_ne]
    exact ⟨rfl, h2⟩

@[simp] theorem isNaN_nanOf (op : FloatOp) (a b : F64) : isNaN (nanOf op a b) = true := isNaN_asNaN _

theorem roundLow_le_inf (num den : Nat) : roundLow num den ≤ infLow := Nat.min_le_left _ _

theorem isNaN_roundPack (neg : Bool) (num den : Nat) : isNaN (pack neg (roundLow num den)) = false :=
  isNaN_pack neg (roundLow_le_inf num den)

/-- A product is NaN exactly when an operand is, or an infinity meets a zero (R7). -/
theorem isNaN_fmul (a b : F64) :
    isNaN (fmul a b) = (isNaN a || isNaN b || (isInf a && isZero b) || (isZero a && isInf b)) := by
  unfold fmul
  split
  · rename_i h; rw [isNaN_nanOf, h]
  · rename_i h
    rw [Bool.not_eq_true] at h
    split
    · rw [h, isNaN_pack _ (Nat.le_refl _)]
    · rw [h, isNaN_roundPack]

theorem isNaN_packSum (a b : F64) (z : Int) : isNaN (packSum a b z) = false := by
  unfold packSum
  split
  · exact isNaN_pack _ (by decide)
  · exact isNaN_roundPack _ _ _

/-- A sum is NaN exactly when an operand is, or infinities of unlike sign meet (R7). -/
theorem isNaN_fadd (a b : F64) :
    isNaN (fadd a b) = (isNaN a || isNaN b || (isInf a && isInf b && (signBit a != signBit b))) := by
  unfold fadd
  split
  · rename_i h; rw [isNaN_nanOf, h]
  · rename_i h
    rw [Bool.not_eq_true] at h
    have ha : isNaN a = false ∧ isNaN b = false := by simp_all
    rw [h]
    split
    · exact ha.1
    · split
      · exact ha.2
      · exact isNaN_packSum _ _ _

/-- The product of finite values is the rounded exact product. -/
theorem fmul_finite {a b : F64} (ha : isFinite a = true) (hb : isFinite b = true) :
    fmul a b = pack (signBit a != signBit b) (roundLow (magnitude a * magnitude b) (2 ^ 1074)) := by
  obtain ⟨na, ia⟩ := (isFinite_iff a).mp ha
  obtain ⟨nb, ib⟩ := (isFinite_iff b).mp hb
  unfold fmul
  rw [na, nb, ia, ib, if_neg (by simp), if_neg (by simp)]

/-- The sum of finite values is the rounded exact sum. -/
theorem fadd_finite {a b : F64} (ha : isFinite a = true) (hb : isFinite b = true) :
    fadd a b = packSum a b (scaledInt a + scaledInt b) := by
  obtain ⟨na, ia⟩ := (isFinite_iff a).mp ha
  obtain ⟨nb, ib⟩ := (isFinite_iff b).mp hb
  simp [fadd, na, nb, ia, ib]

/-! ## Rounding -/

theorem roundQuot_le {num den m : Nat} (h : num ≤ m * den) (hd : 0 < den) : roundQuot num den ≤ m := by
  have hq : num / den ≤ m := Nat.div_le_of_le_mul (by rwa [Nat.mul_comm] at h)
  have hdm := Nat.div_add_mod num den
  unfold roundQuot
  rcases Nat.lt_or_ge (num / den) m with hlt | hge
  · split
    · omega
    · split <;> omega
  · have hm : num / den = m := by omega
    have hr : num % den = 0 := by
      rw [hm, Nat.mul_comm] at hdm
      omega
    rw [hr, if_pos (by omega)]
    omega

theorem le_roundQuot {num den m : Nat} (h : m * den ≤ num) (hd : 0 < den) : m ≤ roundQuot num den := by
  have hq : m ≤ num / den := (Nat.le_div_iff_mul_le hd).mpr h
  unfold roundQuot
  split
  · exact hq
  · split <;> omega

/-- A magnitude written as a significand and an exponent in the ranges of the format. -/
def Normal (e m : Nat) : Prop := m ≤ 2 ^ 53 ∧ (0 < e → 2 ^ 52 ≤ m)

theorem magLow_normal {e m : Nat} (h : Normal e m) : magLow (e * 2 ^ 52 + m) = m * 2 ^ e := by
  obtain ⟨hm, he⟩ := h
  unfold magLow
  rcases Nat.lt_or_ge m (2 ^ 52) with h1 | h1
  · have : e = 0 := by
      by_contra hne
      have := he (by omega)
      omega
    subst this
    rw [if_pos (by omega)]
    simp
    omega
  · rcases Nat.lt_or_ge m (2 ^ 53) with h2 | h2
    · rw [show (e * 2 ^ 52 + m) / 2 ^ 52 = e + 1 by omega, show (e * 2 ^ 52 + m) % 2 ^ 52 = m - 2 ^ 52 by omega,
        if_neg (by omega), Nat.add_sub_cancel, show 2 ^ 52 + (m - 2 ^ 52) = m by omega]
    · have : m = 2 ^ 53 := by omega
      subst this
      rw [show (e * 2 ^ 52 + 2 ^ 53) / 2 ^ 52 = e + 2 by omega, show (e * 2 ^ 52 + 2 ^ 53) % 2 ^ 52 = 0 by omega,
        if_neg (by omega), show e + 2 - 1 = e + 1 by omega, Nat.pow_succ 2 e]
      omega

/-- Every pattern of bits 62:0 is of that form, with the significand below `2^53`. -/
theorem exists_normal (low : Nat) : ∃ e m, Normal e m ∧ m < 2 ^ 53 ∧ low = e * 2 ^ 52 + m := by
  rcases Nat.lt_or_ge low (2 ^ 52) with h | h
  · exact ⟨0, low, ⟨by omega, by omega⟩, by omega, by omega⟩
  · refine ⟨low / 2 ^ 52 - 1, low % 2 ^ 52 + 2 ^ 52, ⟨?_, ?_⟩, ?_, ?_⟩ <;> omega

/-- The significand that rounding chooses is in range for its exponent. -/
theorem roundQuot_normal (num den : Nat) (hd : 0 < den) :
    Normal (dropBits (num / den)) (roundQuot num (den * 2 ^ dropBits (num / den))) := by
  have hlt : num < den * (num / den + 1) := Nat.lt_mul_div_succ num hd
  constructor
  · apply roundQuot_le _ (by positivity)
    have hq : num / den + 1 ≤ 2 ^ 53 * 2 ^ dropBits (num / den) := by
      rw [← pow_add]
      have h2 : num / den < 2 ^ (Nat.log2 (num / den) + 1) := Nat.lt_log2_self
      have : 2 ^ (Nat.log2 (num / den) + 1) ≤ 2 ^ (53 + dropBits (num / den)) :=
        Nat.pow_le_pow_right (by omega) (by unfold dropBits; omega)
      omega
    calc num ≤ den * (num / den + 1) := hlt.le
      _ ≤ den * (2 ^ 53 * 2 ^ dropBits (num / den)) := Nat.mul_le_mul_left _ hq
      _ = _ := by ring
  · intro he
    apply le_roundQuot _ (by positivity)
    have hq : 2 ^ 52 * 2 ^ dropBits (num / den) ≤ num / den := by
      rw [← pow_add]
      have hne : num / den ≠ 0 := by
        intro h0
        simp [dropBits, h0] at he
      have h2 : 2 ^ Nat.log2 (num / den) ≤ num / den := Nat.log2_self_le hne
      have : 52 + dropBits (num / den) = Nat.log2 (num / den) := by unfold dropBits at he ⊢; omega
      rwa [this]
    calc 2 ^ 52 * (den * 2 ^ dropBits (num / den)) = den * (2 ^ 52 * 2 ^ dropBits (num / den)) := by ring
      _ ≤ den * (num / den) := Nat.mul_le_mul_left _ hq
      _ ≤ num := Nat.mul_div_le num den

/-- Rounding does not pass a representable magnitude from below. -/
theorem roundLow_le {num den low : Nat} (hd : 0 < den) (h : num ≤ magLow low * den) : roundLow num den ≤ low := by
  obtain ⟨e0, m0, hn, hlt, rfl⟩ := exists_normal low
  rw [magLow_normal hn] at h
  obtain ⟨hm, he⟩ := roundQuot_normal num den hd
  refine Nat.le_trans (Nat.min_le_right _ _) ?_
  rcases Nat.lt_trichotomy (dropBits (num / den)) e0 with hc | hc | hc
  · have := hn.2 (by omega)
    omega
  · have : roundQuot num (den * 2 ^ dropBits (num / den)) ≤ m0 :=
      roundQuot_le (by rw [hc]; calc num ≤ m0 * 2 ^ e0 * den := h
        _ = _ := by ring) (by positivity)
    rw [hc] at *
    omega
  · exfalso
    have hq : num / den ≤ m0 * 2 ^ e0 := Nat.div_le_of_le_mul (by rw [Nat.mul_comm den]; exact h)
    have hne : num / den ≠ 0 := by
      intro h0
      simp [dropBits, h0] at hc
    have h2 : 2 ^ Nat.log2 (num / den) ≤ num / den := Nat.log2_self_le hne
    have h3 : 2 ^ (53 + e0) ≤ 2 ^ Nat.log2 (num / den) :=
      Nat.pow_le_pow_right (by omega) (by unfold dropBits at hc; omega)
    have h4 : m0 * 2 ^ e0 < 2 ^ (53 + e0) := by
      rw [pow_add]
      exact Nat.mul_lt_mul_of_pos_right hlt (by positivity)
    omega

/-- Rounding does not pass a representable magnitude from above. -/
theorem le_roundLow {num den low : Nat} (hd : 0 < den) (hl : low ≤ infLow) (h : magLow low * den ≤ num) :
    low ≤ roundLow num den := by
  obtain ⟨e0, m0, hn, hlt, rfl⟩ := exists_normal low
  rw [magLow_normal hn] at h
  obtain ⟨hm, he⟩ := roundQuot_normal num den hd
  refine Nat.le_min.mpr ⟨hl, ?_⟩
  rcases Nat.lt_trichotomy (dropBits (num / den)) e0 with hc | hc | hc
  · exfalso
    have hm0 := hn.2 (by omega)
    have hq : m0 * 2 ^ e0 ≤ num / den := (Nat.le_div_iff_mul_le hd).mpr h
    have h2 : 2 ^ (52 + e0) ≤ num / den := by
      rw [pow_add]
      exact Nat.le_trans (Nat.mul_le_mul_right _ hm0) hq
    have h3 : num / den < 2 ^ (Nat.log2 (num / den) + 1) := Nat.lt_log2_self
    have h4 : 2 ^ (Nat.log2 (num / den) + 1) ≤ 2 ^ (52 + e0) :=
      Nat.pow_le_pow_right (by omega) (by unfold dropBits at hc; omega)
    omega
  · have : m0 ≤ roundQuot num (den * 2 ^ dropBits (num / den)) :=
      le_roundQuot (by rw [hc]; calc m0 * (den * 2 ^ e0) = m0 * 2 ^ e0 * den := by ring
        _ ≤ num := h) (by positivity)
    rw [hc] at *
    omega
  · have := he (by omega)
    omega

/-- A representable magnitude is rounded to itself. -/
theorem roundLow_exact {num den low : Nat} (hd : 0 < den) (hl : low ≤ infLow) (h : num = magLow low * den) :
    roundLow num den = low :=
  Nat.le_antisymm (roundLow_le hd (Nat.le_of_eq h)) (le_roundLow hd hl (Nat.le_of_eq h.symm))

/-- A whole number of units with at most 53 significant bits is representable. -/
theorem exists_magLow {m : Nat} (e : Nat) (hm : m < 2 ^ 53) : ∃ low, magLow low = m * 2 ^ e := by
  by_cases h0 : m * 2 ^ e < 2 ^ 53
  · exact ⟨0 * 2 ^ 52 + m * 2 ^ e, by rw [magLow_normal ⟨by omega, by omega⟩]; simp⟩
  · have hne : m * 2 ^ e ≠ 0 := by intro h; simp [h] at h0
    generalize hk : m * 2 ^ e = k at *
    have h1 : 2 ^ Nat.log2 k ≤ k := Nat.log2_self_le hne
    have h2 : k < 2 ^ (Nat.log2 k + 1) := Nat.lt_log2_self
    have ht : 53 ≤ Nat.log2 k := by
      by_contra hlt
      have : 2 ^ (Nat.log2 k + 1) ≤ 2 ^ 53 := Nat.pow_le_pow_right (by omega) (by omega)
      omega
    have hte : Nat.log2 k - 52 ≤ e := by
      by_contra hlt
      have h3 : 2 ^ (53 + e) ≤ 2 ^ Nat.log2 k := Nat.pow_le_pow_right (by omega) (by omega)
      have h4 : k < 2 ^ (53 + e) := by
        rw [← hk, pow_add]
        exact Nat.mul_lt_mul_of_pos_right hm (by positivity)
      omega
    have hkd : k = m * 2 ^ (e - (Nat.log2 k - 52)) * 2 ^ (Nat.log2 k - 52) := by
      rw [Nat.mul_assoc, ← pow_add, Nat.sub_add_cancel hte, hk]
    generalize m * 2 ^ (e - (Nat.log2 k - 52)) = n at hkd
    generalize ha : Nat.log2 k - 52 = a at *
    have hl : Nat.log2 k = a + 52 := by omega
    have hp : 0 < 2 ^ a := by positivity
    have hn1 : 2 ^ 52 ≤ n := by
      rw [hl, pow_add, Nat.mul_comm, hkd] at h1
      exact Nat.le_of_mul_le_mul_right h1 hp
    have hn2 : n < 2 ^ 53 := by
      rw [hl, show a + 52 + 1 = a + 53 by omega, pow_add, Nat.mul_comm] at h2
      rw [hkd] at h2
      exact Nat.lt_of_mul_lt_mul_right h2
    exact ⟨a * 2 ^ 52 + n, by rw [magLow_normal ⟨by omega, fun _ => hn1⟩, ← hkd]⟩

theorem magLow_infLow : magLow infLow = 2 ^ 2098 := by
  rw [show infLow = 2046 * 2 ^ 52 + 2 ^ 52 by decide, magLow_normal ⟨by omega, fun _ => le_rfl⟩, ← Nat.pow_add]

/-- Magnitudes are ordered as their patterns are. -/
theorem magLow_mono {a b : Nat} (h : a ≤ b) (hb : b ≤ infLow) : magLow a ≤ magLow b := by
  by_contra hlt
  have h1 := roundLow_le (num := magLow b) (den := 1) (low := a) (by omega) (by omega)
  have h2 := le_roundLow (num := magLow b) (den := 1) (low := b) (by omega) hb (by omega)
  have : a = b := by omega
  subst this
  omega

theorem magLow_inj {a b : Nat} (ha : a ≤ infLow) (hb : b ≤ infLow) (h : magLow a = magLow b) : a = b := by
  have h1 := roundLow_exact (num := magLow a) (den := 1) (low := a) (by omega) ha (by omega)
  have h2 := roundLow_exact (num := magLow a) (den := 1) (low := b) (by omega) hb (by omega)
  omega

/-- A pattern whose magnitude is below `2^1024` is finite. -/
theorem low_lt_inf {low : Nat} (h : magLow low < 2 ^ 2098) : low < infLow := by
  by_contra hge
  obtain ⟨e0, m0, hn, hlt, rfl⟩ := exists_normal low
  rw [magLow_normal hn] at h
  have hm0 : 2 ^ 52 ≤ m0 := hn.2 (by unfold infLow at hge; omega)
  have he : 2046 ≤ e0 := by unfold infLow at hge; omega
  have h1 : 2 ^ 52 * 2 ^ 2046 ≤ m0 * 2 ^ e0 := Nat.mul_le_mul hm0 (Nat.pow_le_pow_right (by omega) he)
  rw [← pow_add] at h1
  omega

/-- Rounding a magnitude that is representable and finite gives a finite pattern of that very magnitude. -/
theorem magnitude_roundPack {num den m e : Nat} (neg : Bool) (hd : 0 < den) (hm : m < 2 ^ 53) (h : num = m * 2 ^ e * den)
    (hlt : m * 2 ^ e < 2 ^ 2098) :
    isFinite (pack neg (roundLow num den)) = true ∧ magnitude (pack neg (roundLow num den)) = m * 2 ^ e ∧
      signBit (pack neg (roundLow num den)) = neg := by
  obtain ⟨low, hl⟩ := exists_magLow e hm
  have hinf : low < infLow := low_lt_inf (by omega)
  rw [roundLow_exact hd (Nat.le_of_lt hinf) (by rw [hl]; exact h)]
  have h63 : low < 2 ^ 63 := by unfold infLow at hinf; omega
  refine ⟨?_, ?_, signBit_pack neg h63⟩
  · rw [isFinite_pack neg (by omega)]; simpa using hinf
  · rw [magnitude_pack neg h63, hl]

/-- Rounding a magnitude that does not exceed a representable finite one gives a finite pattern that does not exceed it either. -/
theorem magnitude_roundPack_le {num den m e : Nat} (neg : Bool) (hd : 0 < den) (hm : m < 2 ^ 53) (h : num ≤ m * 2 ^ e * den)
    (hlt : m * 2 ^ e < 2 ^ 2098) :
    isFinite (pack neg (roundLow num den)) = true ∧ magnitude (pack neg (roundLow num den)) ≤ m * 2 ^ e := by
  obtain ⟨low, hl⟩ := exists_magLow e hm
  have hinf : low < infLow := low_lt_inf (by omega)
  have hle : roundLow num den ≤ low := roundLow_le hd (by rw [hl]; exact h)
  have h63 : roundLow num den < 2 ^ 63 := by unfold infLow at hinf; omega
  refine ⟨?_, ?_⟩
  · rw [isFinite_pack neg (by omega)]; simp; omega
  · rw [magnitude_pack neg h63, ← hl]
    exact magLow_mono hle (by omega)

/-! ## Nearest, ties to even -/

/-- Integer form: of the multiples of `d`, the one chosen by comparing twice the remainder with `d` is nearest, and is even at a tie. -/
theorem nearest_multiple (num q r k d : Int)
    (hdm : num = d*q + r) (hr0 : 0 ≤ r) (hr : r < d) (m : Int)
    (hm : (2*r < d ∧ m = q) ∨ (d < 2*r ∧ m = q+1) ∨ (2*r = d ∧ m = q + q % 2)) :
    |num - m*d| ≤ |num - k*d| ∧ (k ≠ m → |num - m*d| = |num - k*d| → m % 2 = 0) := by
  have hd : 0 < d := by omega
  have key : k ≤ q - 1 ∨ k = q ∨ k = q + 1 ∨ q + 2 ≤ k := by omega
  have e1 : num - q * d = r := by rw [hdm]; ring
  have e2 : num - (q+1) * d = r - d := by rw [hdm]; ring
  have hq2 : q % 2 = 0 ∨ q % 2 = 1 := by omega
  have bound : (k ≤ q - 1 → r + d ≤ |num - k*d|) ∧ (q + 2 ≤ k → 2*d - r ≤ |num - k*d|) := by
    constructor
    · intro hk
      have : r + d ≤ num - k*d := by nlinarith
      exact le_trans this (le_abs_self _)
    · intro hk
      have : 2*d - r ≤ -(num - k*d) := by nlinarith
      exact le_trans this (neg_le_abs _)
  have hm' : (m = q ∧ 2 * r ≤ d) ∨ (m = q+1 ∧ d ≤ 2*r) := by omega
  rcases hm' with ⟨h, h'⟩ | ⟨h, h'⟩
  · have em : |num - m*d| = r := by rw [h, e1]; exact abs_of_nonneg hr0
    rw [em]
    rcases key with hk | hk | hk | hk
    · have := bound.1 hk; constructor <;> omega
    · subst hk; rw [e1, abs_of_nonneg hr0]; constructor <;> omega
    · subst hk; rw [e2, abs_of_nonpos (by omega)]; constructor <;> omega
    · have := bound.2 hk; constructor <;> omega
  · have em : |num - m*d| = d - r := by rw [h, e2, abs_of_nonpos (by omega)]; ring
    rw [em]
    rcases key with hk | hk | hk | hk
    · have := bound.1 hk; constructor <;> omega
    · subst hk; rw [e1, abs_of_nonneg hr0]; constructor <;> omega
    · subst hk; rw [e2, abs_of_nonpos (by omega)]; constructor <;> omega
    · have := bound.2 hk; constructor <;> omega

theorem roundQuot_nearest {num den : Nat} (hd : 0 < den) (k : Nat) :
    |(num : Int) - roundQuot num den * den| ≤ |(num : Int) - k * den| ∧
      (k ≠ roundQuot num den → |(num : Int) - roundQuot num den * den| = |(num : Int) - k * den| →
        roundQuot num den % 2 = 0) := by
  have h := nearest_multiple num (num / den : Nat) (num % den : Nat) k den
    (by exact_mod_cast (Nat.div_add_mod num den).symm) (by omega)
    (by exact_mod_cast Nat.mod_lt num hd) (roundQuot num den) (by unfold roundQuot; split <;> [omega; (split <;> omega)])
  exact ⟨h.1, fun hk he => by have := h.2 (by exact_mod_cast hk) he; omega⟩

/-- Rounding to a finite magnitude picks a nearest representable one, and at a tie the one whose last fraction bit is 0 (R7). -/
theorem roundLow_nearest {num den low : Nat} (hd : 0 < den) (hr : roundLow num den < infLow) (hl : low ≤ infLow) :
    |(num : Int) - magLow (roundLow num den) * den| ≤ |(num : Int) - magLow low * den| ∧
      (low ≠ roundLow num den → |(num : Int) - magLow (roundLow num den) * den| = |(num : Int) - magLow low * den| →
        roundLow num den % 2 = 0) := by
  have hn := roundQuot_normal num den hd
  have hlow : roundLow num den = dropBits (num / den) * 2 ^ 52 + roundQuot num (den * 2 ^ dropBits (num / den)) := by
    unfold roundLow at hr ⊢
    omega
  have hmag : magLow (roundLow num den) =
      roundQuot num (den * 2 ^ dropBits (num / den)) * 2 ^ dropBits (num / den) := by rw [hlow, magLow_normal hn]
  obtain ⟨e0, m0, hn0, hlt, hl0⟩ := exists_normal low
  have hm0 : magLow low = m0 * 2 ^ e0 := by rw [hl0, magLow_normal hn0]
  have hpos : 0 < den * 2 ^ dropBits (num / den) := by positivity
  have hcast : ∀ k : Nat, ((k * 2 ^ dropBits (num / den) : Nat) : Int) * (den : Int) =
      (k : Int) * ((den * 2 ^ dropBits (num / den) : Nat) : Int) := fun k => by push_cast; ring
  rcases Nat.lt_or_ge e0 (dropBits (num / den)) with hc | hc
  · have hD : 2 ^ 52 * (den * 2 ^ dropBits (num / den)) ≤ num := by
      have hne : num / den ≠ 0 := by
        intro h0
        simp [dropBits, h0] at hc
      have h2 : 2 ^ Nat.log2 (num / den) ≤ num / den := Nat.log2_self_le hne
      rw [show Nat.log2 (num / den) = 52 + dropBits (num / den) by unfold dropBits at hc ⊢; omega, pow_add] at h2
      calc 2 ^ 52 * (den * 2 ^ dropBits (num / den)) = den * (2 ^ 52 * 2 ^ dropBits (num / den)) := by ring
        _ ≤ den * (num / den) := Nat.mul_le_mul_left _ h2
        _ ≤ num := Nat.mul_div_le num den
    have hK : magLow low * den < 2 ^ 52 * (den * 2 ^ dropBits (num / den)) := by
      rw [hm0]
      calc m0 * 2 ^ e0 * den < 2 ^ 53 * 2 ^ e0 * den :=
            Nat.mul_lt_mul_of_pos_right (Nat.mul_lt_mul_of_pos_right hlt (by positivity)) hd
        _ = 2 ^ 52 * (den * 2 ^ (e0 + 1)) := by ring
        _ ≤ 2 ^ 52 * (den * 2 ^ dropBits (num / den)) :=
            Nat.mul_le_mul_left _ (Nat.mul_le_mul_left _ (Nat.pow_le_pow_right (by omega) hc))
    have hnear := (roundQuot_nearest (num := num) hpos (2 ^ 52)).1
    rw [hmag, hcast]
    rw [abs_of_nonneg (a := (num : Int) - ((2 ^ 52 : Nat) : Int) * _)
      (by have : ((2 ^ 52 * (den * 2 ^ dropBits (num / den)) : Nat) : Int) ≤ num := by exact_mod_cast hD
          push_cast at this ⊢; linarith)] at hnear
    have hstrict : (num : Int) - ((2 ^ 52 : Nat) : Int) * ((den * 2 ^ dropBits (num / den) : Nat) : Int) <
        |(num : Int) - magLow low * den| := by
      have h1 : ((magLow low * den : Nat) : Int) < ((2 ^ 52 * (den * 2 ^ dropBits (num / den)) : Nat) : Int) := by
        exact_mod_cast hK
      rw [Nat.cast_mul, Nat.cast_mul (2 ^ 52)] at h1
      exact lt_of_lt_of_le (by linarith) (le_abs_self _)
    exact ⟨by linarith, fun _ he => by exfalso; linarith⟩
  · have hk : magLow low = m0 * 2 ^ (e0 - dropBits (num / den)) * 2 ^ dropBits (num / den) := by
      rw [hm0, Nat.mul_assoc, ← pow_add, Nat.sub_add_cancel hc]
    have hnear := roundQuot_nearest (num := num) hpos (m0 * 2 ^ (e0 - dropBits (num / den)))
    rw [hmag, hk, hcast, hcast]
    refine ⟨hnear.1, fun hne he => ?_⟩
    have heven := hnear.2 (fun heq => hne (magLow_inj hl hr.le (by rw [hk, hmag, heq]))) he
    omega

/-- In the topmost binade the unit is `2^2045` of the least subnormal. -/
theorem dropBits_top {q : Nat} (h1 : 2 ^ 2097 ≤ q) (h2 : q < 2 ^ 2098) : dropBits q = 2045 := by
  have hne : q ≠ 0 := by
    have : 0 < 2 ^ 2097 := Nat.two_pow_pos 2097
    omega
  have := (Nat.log2_eq_iff hne (k := 2097)).mpr ⟨h1, h2⟩
  unfold dropBits
  omega

/-- What rounds to infinity: every magnitude from half a unit above the largest finite one on (R7). -/
theorem roundLow_eq_inf_iff {num den : Nat} (hd : 0 < den) :
    roundLow num den = infLow ↔ (2 ^ 54 - 1) * 2 ^ 2044 * den ≤ num := by
  have hmax : magLow (infLow - 1) = (2 ^ 53 - 1) * 2 ^ 2045 := by
    rw [show infLow - 1 = 2045 * 2 ^ 52 + (2 ^ 53 - 1) by decide, magLow_normal ⟨by omega, fun _ => by omega⟩]
  have h97 : (2 : Nat) ^ 2097 = 2 ^ 53 * 2 ^ 2044 := by rw [← Nat.pow_add]
  have h98 : (2 : Nat) ^ 2098 = 2 ^ 54 * 2 ^ 2044 := by rw [← Nat.pow_add]
  have h45 : (2 : Nat) ^ 2045 = 2 * 2 ^ 2044 := by rw [Nat.pow_succ, Nat.mul_comm]
  have hP : 0 < 2 ^ 2044 := Nat.two_pow_pos 2044
  have htop := @dropBits_top (num / den)
  have hinf := magLow_infLow
  rw [h97, h98] at htop
  rw [h98] at hinf
  rw [h45] at hmax
  generalize hPP : 2 ^ 2044 = P at *
  have hQ : 0 < P * den := Nat.mul_pos hP hd
  have hb : (2 ^ 54 - 1) * P * den = (2 ^ 54 - 1) * (P * den) := Nat.mul_assoc _ _ _
  have hmx : (2 ^ 53 - 1) * (2 * P) * den = (2 ^ 54 - 2) * (P * den) := by
    rw [show 2 ^ 54 - 2 = (2 ^ 53 - 1) * 2 by decide]
    ring
  have hhi : 2 ^ 54 * P * den = 2 ^ 54 * (P * den) := Nat.mul_assoc _ _ _
  have hlo : 2 ^ 53 * P * den = 2 ^ 53 * (P * den) := Nat.mul_assoc _ _ _
  have hD : den * (2 * P) = 2 * (P * den) := by ring
  rcases Nat.lt_or_ge ((2 ^ 53 - 1) * (2 * P) * den) num with hlow | hlow
  · rcases Nat.lt_or_ge num (2 ^ 54 * P * den) with hhigh | hhigh
    · have he : dropBits (num / den) = 2045 := by
        apply htop
        · rw [Nat.le_div_iff_mul_le hd]
          omega
        · exact Nat.div_lt_of_lt_mul (by rw [Nat.mul_comm]; exact hhigh)
      have hq : num / (2 * (P * den)) = 2 ^ 53 - 1 := by
        apply Nat.div_eq_of_lt_le <;> omega
      have hdm := Nat.div_add_mod num (2 * (P * den))
      have hr := Nat.mod_lt num (show 0 < 2 * (P * den) by omega)
      rw [hq] at hdm
      unfold roundLow roundQuot infLow
      rw [he, h45, hD, hq, hb]
      generalize P * den = Q at *
      generalize num % (2 * Q) = r at *
      split
      · omega
      · split <;> omega
    · have h1 : infLow ≤ roundLow num den := le_roundLow hd (Nat.le_refl _) (by rw [hinf]; exact hhigh)
      have h2 := roundLow_le_inf num den
      omega
  · have h1 : roundLow num den ≤ infLow - 1 := roundLow_le hd (by rw [hmax]; exact hlow)
    have h2 : 0 < infLow := by decide
    omega

/-! ## Finite values -/

theorem scaledInt_eq (x : F64) : scaledInt x = (if signBit x then -1 else 1) * (magnitude x : Int) := by
  unfold scaledInt; split <;> simp

/-- A quotient of finite values by a nonzero one. -/
theorem fdiv_finite {a b : F64} (ha : isFinite a = true) (hb : isFinite b = true) (hz : isZero b = false) :
    fdiv a b = pack (signBit a != signBit b) (roundLow (magnitude a * 2^1074) (magnitude b)) := by
  obtain ⟨na, ia⟩ := (isFinite_iff a).mp ha
  obtain ⟨nb, ib⟩ := (isFinite_iff b).mp hb
  unfold fdiv
  rw [na, nb, ia, ib, hz, if_neg (by simp), if_neg (by simp), if_neg (by simp)]

/-- A finite value is its sign and its magnitude. -/
theorem eq_of_fields {x y : F64} (h1 : isFinite x = true) (h2 : isFinite y = true) (hm : magnitude x = magnitude y) (hs : signBit x = signBit y) : x = y := by
  obtain ⟨a, ha, ea⟩ := exists_pack x
  obtain ⟨b, hb, eb⟩ := exists_pack y
  have hfa : a < infLow := by
    have : isFinite (pack (signBit x) a) = true := by rw [← ea]; exact h1
    unfold isFinite at this; rw [expField_pack _ ha] at this; unfold infLow; simp at this; omega
  have hfb : b < infLow := by
    have : isFinite (pack (signBit y) b) = true := by rw [← eb]; exact h2
    unfold isFinite at this; rw [expField_pack _ hb] at this; unfold infLow; simp at this; omega
  have m1 : magnitude x = magLow a := by rw [ea]; exact magnitude_pack _ ha
  have m2 : magnitude y = magLow b := by rw [eb]; exact magnitude_pack _ hb
  have := magLow_inj hfa.le hfb.le (by omega)
  rw [ea, eb, this, hs]

/-- A finite magnitude is a 53-bit significand at some place. -/
theorem exists_significand (x : F64) : ∃ m e, m < 2^53 ∧ magnitude x = m * 2^e := by
  unfold magnitude
  have hf : fracField x < 2^52 := Nat.mod_lt _ (by decide)
  split
  · exact ⟨fracField x, 0, by omega, by simp⟩
  · exact ⟨_, _, by omega, rfl⟩

theorem tdiv_sign (n d : Nat) (b : Bool) : Int.tdiv ((if b then -1 else 1) * (n : Int)) (d:Int) = (if b then -((n/d : Nat):Int) else ((n/d:Nat):Int)) := by
  cases b
  · simp [Int.tdiv_eq_ediv]
  · simp

/-- Truncating a finite value (R7). -/
theorem trunc_finite {x : F64} (h : isFinite x = true) : trunc x = some (.int (Int.tdiv (scaledInt x) (2^1074))) := by
  obtain ⟨n, i⟩ := (isFinite_iff x).mp h
  unfold trunc
  rw [n, i, if_neg (by simp), if_neg (by simp), scaledInt_eq, show ((2:Int)^1074) = ((2^1074 : Nat):Int) by push_cast; rfl, tdiv_sign]

theorem pow_lt_inf {k : Nat} (h : k < 2098) : 2^k < 2^2098 := Nat.pow_lt_pow_right (by omega) h

end Sys2Proof.Machine
end

