-- ==== Sys2Proof/Laws/State.lean ====
section
/-! SUPPORT. What each register and port update leaves in each field of the state: one lemma a field, for simp. -/

namespace Sys2Proof.Machine

@[simp] theorem State.setPrev_prev (s : State) (v : F64) : (s.setPrev v).prev = v := rfl
@[simp] theorem State.setPrev_hist (s : State) (v : F64) : (s.setPrev v).hist = s.hist := rfl
@[simp] theorem State.setPrev_fault (s : State) (v : F64) : (s.setPrev v).fault = s.fault := rfl
@[simp] theorem State.setPrev_seq (s : State) (v : F64) : (s.setPrev v).seq = s.seq := rfl
@[simp] theorem State.setPrev_coeff (s : State) (v : F64) : (s.setPrev v).coeff = s.coeff := rfl
@[simp] theorem State.setPrev_gain (s : State) (v : F64) : (s.setPrev v).gain = s.gain := rfl
@[simp] theorem State.setPrev_inp (s : State) (v : F64) : (s.setPrev v).inp = s.inp := rfl
@[simp] theorem State.setPrev_out (s : State) (v : F64) : (s.setPrev v).out = s.out := rfl
@[simp] theorem State.setPrev_reply (s : State) (v : F64) : (s.setPrev v).reply = s.reply := rfl
@[simp] theorem State.setPrev_offered (s : State) (v : F64) : (s.setPrev v).offered = s.offered := rfl
@[simp] theorem State.setPrev_sink (s : State) (v : F64) : (s.setPrev v).sink = s.sink := rfl
@[simp] theorem State.setPrev_sinkReady (s : State) (v : F64) : (s.setPrev v).sinkReady = s.sinkReady := rfl
@[simp] theorem State.setPrev_stop (s : State) (v : F64) : (s.setPrev v).stop = s.stop := rfl
@[simp] theorem State.setPrev_resetReq (s : State) (v : F64) : (s.setPrev v).resetReq = s.resetReq := rfl
@[simp] theorem State.setPrev_running (s : State) (v : F64) : (s.setPrev v).running = s.running := rfl
@[simp] theorem State.setPrev_source (s : State) (v : F64) : (s.setPrev v).source = s.source := rfl
@[simp] theorem State.setPrev_requests (s : State) (v : F64) : (s.setPrev v).requests = s.requests := rfl

@[simp] theorem State.setHist_prev (s : State) (v : Vector F64 27) : (s.setHist v).prev = s.prev := rfl
@[simp] theorem State.setHist_hist (s : State) (v : Vector F64 27) : (s.setHist v).hist = v := rfl
@[simp] theorem State.setHist_fault (s : State) (v : Vector F64 27) : (s.setHist v).fault = s.fault := rfl
@[simp] theorem State.setHist_seq (s : State) (v : Vector F64 27) : (s.setHist v).seq = s.seq := rfl
@[simp] theorem State.setHist_coeff (s : State) (v : Vector F64 27) : (s.setHist v).coeff = s.coeff := rfl
@[simp] theorem State.setHist_gain (s : State) (v : Vector F64 27) : (s.setHist v).gain = s.gain := rfl
@[simp] theorem State.setHist_inp (s : State) (v : Vector F64 27) : (s.setHist v).inp = s.inp := rfl
@[simp] theorem State.setHist_out (s : State) (v : Vector F64 27) : (s.setHist v).out = s.out := rfl
@[simp] theorem State.setHist_reply (s : State) (v : Vector F64 27) : (s.setHist v).reply = s.reply := rfl
@[simp] theorem State.setHist_offered (s : State) (v : Vector F64 27) : (s.setHist v).offered = s.offered := rfl
@[simp] theorem State.setHist_sink (s : State) (v : Vector F64 27) : (s.setHist v).sink = s.sink := rfl
@[simp] theorem State.setHist_sinkReady (s : State) (v : Vector F64 27) : (s.setHist v).sinkReady = s.sinkReady := rfl
@[simp] theorem State.setHist_stop (s : State) (v : Vector F64 27) : (s.setHist v).stop = s.stop := rfl
@[simp] theorem State.setHist_resetReq (s : State) (v : Vector F64 27) : (s.setHist v).resetReq = s.resetReq := rfl
@[simp] theorem State.setHist_running (s : State) (v : Vector F64 27) : (s.setHist v).running = s.running := rfl
@[simp] theorem State.setHist_source (s : State) (v : Vector F64 27) : (s.setHist v).source = s.source := rfl
@[simp] theorem State.setHist_requests (s : State) (v : Vector F64 27) : (s.setHist v).requests = s.requests := rfl

@[simp] theorem State.setFault_prev (s : State) (v : Bool) : (s.setFault v).prev = s.prev := rfl
@[simp] theorem State.setFault_hist (s : State) (v : Bool) : (s.setFault v).hist = s.hist := rfl
@[simp] theorem State.setFault_fault (s : State) (v : Bool) : (s.setFault v).fault = v := rfl
@[simp] theorem State.setFault_seq (s : State) (v : Bool) : (s.setFault v).seq = s.seq := rfl
@[simp] theorem State.setFault_coeff (s : State) (v : Bool) : (s.setFault v).coeff = s.coeff := rfl
@[simp] theorem State.setFault_gain (s : State) (v : Bool) : (s.setFault v).gain = s.gain := rfl
@[simp] theorem State.setFault_inp (s : State) (v : Bool) : (s.setFault v).inp = s.inp := rfl
@[simp] theorem State.setFault_out (s : State) (v : Bool) : (s.setFault v).out = s.out := rfl
@[simp] theorem State.setFault_reply (s : State) (v : Bool) : (s.setFault v).reply = s.reply := rfl
@[simp] theorem State.setFault_offered (s : State) (v : Bool) : (s.setFault v).offered = s.offered := rfl
@[simp] theorem State.setFault_sink (s : State) (v : Bool) : (s.setFault v).sink = s.sink := rfl
@[simp] theorem State.setFault_sinkReady (s : State) (v : Bool) : (s.setFault v).sinkReady = s.sinkReady := rfl
@[simp] theorem State.setFault_stop (s : State) (v : Bool) : (s.setFault v).stop = s.stop := rfl
@[simp] theorem State.setFault_resetReq (s : State) (v : Bool) : (s.setFault v).resetReq = s.resetReq := rfl
@[simp] theorem State.setFault_running (s : State) (v : Bool) : (s.setFault v).running = s.running := rfl
@[simp] theorem State.setFault_source (s : State) (v : Bool) : (s.setFault v).source = s.source := rfl
@[simp] theorem State.setFault_requests (s : State) (v : Bool) : (s.setFault v).requests = s.requests := rfl

@[simp] theorem State.setSeq_prev (s : State) (v : SeqPos) : (s.setSeq v).prev = s.prev := rfl
@[simp] theorem State.setSeq_hist (s : State) (v : SeqPos) : (s.setSeq v).hist = s.hist := rfl
@[simp] theorem State.setSeq_fault (s : State) (v : SeqPos) : (s.setSeq v).fault = s.fault := rfl
@[simp] theorem State.setSeq_seq (s : State) (v : SeqPos) : (s.setSeq v).seq = v := rfl
@[simp] theorem State.setSeq_coeff (s : State) (v : SeqPos) : (s.setSeq v).coeff = s.coeff := rfl
@[simp] theorem State.setSeq_gain (s : State) (v : SeqPos) : (s.setSeq v).gain = s.gain := rfl
@[simp] theorem State.setSeq_inp (s : State) (v : SeqPos) : (s.setSeq v).inp = s.inp := rfl
@[simp] theorem State.setSeq_out (s : State) (v : SeqPos) : (s.setSeq v).out = s.out := rfl
@[simp] theorem State.setSeq_reply (s : State) (v : SeqPos) : (s.setSeq v).reply = s.reply := rfl
@[simp] theorem State.setSeq_offered (s : State) (v : SeqPos) : (s.setSeq v).offered = s.offered := rfl
@[simp] theorem State.setSeq_sink (s : State) (v : SeqPos) : (s.setSeq v).sink = s.sink := rfl
@[simp] theorem State.setSeq_sinkReady (s : State) (v : SeqPos) : (s.setSeq v).sinkReady = s.sinkReady := rfl
@[simp] theorem State.setSeq_stop (s : State) (v : SeqPos) : (s.setSeq v).stop = s.stop := rfl
@[simp] theorem State.setSeq_resetReq (s : State) (v : SeqPos) : (s.setSeq v).resetReq = s.resetReq := rfl
@[simp] theorem State.setSeq_running (s : State) (v : SeqPos) : (s.setSeq v).running = s.running := rfl
@[simp] theorem State.setSeq_source (s : State) (v : SeqPos) : (s.setSeq v).source = s.source := rfl
@[simp] theorem State.setSeq_requests (s : State) (v : SeqPos) : (s.setSeq v).requests = s.requests := rfl

@[simp] theorem State.setInp_prev (s : State) (v : Block) : (s.setInp v).prev = s.prev := rfl
@[simp] theorem State.setInp_hist (s : State) (v : Block) : (s.setInp v).hist = s.hist := rfl
@[simp] theorem State.setInp_fault (s : State) (v : Block) : (s.setInp v).fault = s.fault := rfl
@[simp] theorem State.setInp_seq (s : State) (v : Block) : (s.setInp v).seq = s.seq := rfl
@[simp] theorem State.setInp_coeff (s : State) (v : Block) : (s.setInp v).coeff = s.coeff := rfl
@[simp] theorem State.setInp_gain (s : State) (v : Block) : (s.setInp v).gain = s.gain := rfl
@[simp] theorem State.setInp_inp (s : State) (v : Block) : (s.setInp v).inp = v := rfl
@[simp] theorem State.setInp_out (s : State) (v : Block) : (s.setInp v).out = s.out := rfl
@[simp] theorem State.setInp_reply (s : State) (v : Block) : (s.setInp v).reply = s.reply := rfl
@[simp] theorem State.setInp_offered (s : State) (v : Block) : (s.setInp v).offered = s.offered := rfl
@[simp] theorem State.setInp_sink (s : State) (v : Block) : (s.setInp v).sink = s.sink := rfl
@[simp] theorem State.setInp_sinkReady (s : State) (v : Block) : (s.setInp v).sinkReady = s.sinkReady := rfl
@[simp] theorem State.setInp_stop (s : State) (v : Block) : (s.setInp v).stop = s.stop := rfl
@[simp] theorem State.setInp_resetReq (s : State) (v : Block) : (s.setInp v).resetReq = s.resetReq := rfl
@[simp] theorem State.setInp_running (s : State) (v : Block) : (s.setInp v).running = s.running := rfl
@[simp] theorem State.setInp_source (s : State) (v : Block) : (s.setInp v).source = s.source := rfl
@[simp] theorem State.setInp_requests (s : State) (v : Block) : (s.setInp v).requests = s.requests := rfl

@[simp] theorem State.setOut_prev (s : State) (v : Block) : (s.setOut v).prev = s.prev := rfl
@[simp] theorem State.setOut_hist (s : State) (v : Block) : (s.setOut v).hist = s.hist := rfl
@[simp] theorem State.setOut_fault (s : State) (v : Block) : (s.setOut v).fault = s.fault := rfl
@[simp] theorem State.setOut_seq (s : State) (v : Block) : (s.setOut v).seq = s.seq := rfl
@[simp] theorem State.setOut_coeff (s : State) (v : Block) : (s.setOut v).coeff = s.coeff := rfl
@[simp] theorem State.setOut_gain (s : State) (v : Block) : (s.setOut v).gain = s.gain := rfl
@[simp] theorem State.setOut_inp (s : State) (v : Block) : (s.setOut v).inp = s.inp := rfl
@[simp] theorem State.setOut_out (s : State) (v : Block) : (s.setOut v).out = v := rfl
@[simp] theorem State.setOut_reply (s : State) (v : Block) : (s.setOut v).reply = s.reply := rfl
@[simp] theorem State.setOut_offered (s : State) (v : Block) : (s.setOut v).offered = s.offered := rfl
@[simp] theorem State.setOut_sink (s : State) (v : Block) : (s.setOut v).sink = s.sink := rfl
@[simp] theorem State.setOut_sinkReady (s : State) (v : Block) : (s.setOut v).sinkReady = s.sinkReady := rfl
@[simp] theorem State.setOut_stop (s : State) (v : Block) : (s.setOut v).stop = s.stop := rfl
@[simp] theorem State.setOut_resetReq (s : State) (v : Block) : (s.setOut v).resetReq = s.resetReq := rfl
@[simp] theorem State.setOut_running (s : State) (v : Block) : (s.setOut v).running = s.running := rfl
@[simp] theorem State.setOut_source (s : State) (v : Block) : (s.setOut v).source = s.source := rfl
@[simp] theorem State.setOut_requests (s : State) (v : Block) : (s.setOut v).requests = s.requests := rfl

@[simp] theorem State.setReply_prev (s : State) (v : Reply) : (s.setReply v).prev = s.prev := rfl
@[simp] theorem State.setReply_hist (s : State) (v : Reply) : (s.setReply v).hist = s.hist := rfl
@[simp] theorem State.setReply_fault (s : State) (v : Reply) : (s.setReply v).fault = s.fault := rfl
@[simp] theorem State.setReply_seq (s : State) (v : Reply) : (s.setReply v).seq = s.seq := rfl
@[simp] theorem State.setReply_coeff (s : State) (v : Reply) : (s.setReply v).coeff = s.coeff := rfl
@[simp] theorem State.setReply_gain (s : State) (v : Reply) : (s.setReply v).gain = s.gain := rfl
@[simp] theorem State.setReply_inp (s : State) (v : Reply) : (s.setReply v).inp = s.inp := rfl
@[simp] theorem State.setReply_out (s : State) (v : Reply) : (s.setReply v).out = s.out := rfl
@[simp] theorem State.setReply_reply (s : State) (v : Reply) : (s.setReply v).reply = v := rfl
@[simp] theorem State.setReply_offered (s : State) (v : Reply) : (s.setReply v).offered = s.offered := rfl
@[simp] theorem State.setReply_sink (s : State) (v : Reply) : (s.setReply v).sink = s.sink := rfl
@[simp] theorem State.setReply_sinkReady (s : State) (v : Reply) : (s.setReply v).sinkReady = s.sinkReady := rfl
@[simp] theorem State.setReply_stop (s : State) (v : Reply) : (s.setReply v).stop = s.stop := rfl
@[simp] theorem State.setReply_resetReq (s : State) (v : Reply) : (s.setReply v).resetReq = s.resetReq := rfl
@[simp] theorem State.setReply_running (s : State) (v : Reply) : (s.setReply v).running = s.running := rfl
@[simp] theorem State.setReply_source (s : State) (v : Reply) : (s.setReply v).source = s.source := rfl
@[simp] theorem State.setReply_requests (s : State) (v : Reply) : (s.setReply v).requests = s.requests := rfl

@[simp] theorem State.setOffered_prev (s : State) (v : Option RawBlock) : (s.setOffered v).prev = s.prev := rfl
@[simp] theorem State.setOffered_hist (s : State) (v : Option RawBlock) : (s.setOffered v).hist = s.hist := rfl
@[simp] theorem State.setOffered_fault (s : State) (v : Option RawBlock) : (s.setOffered v).fault = s.fault := rfl
@[simp] theorem State.setOffered_seq (s : State) (v : Option RawBlock) : (s.setOffered v).seq = s.seq := rfl
@[simp] theorem State.setOffered_coeff (s : State) (v : Option RawBlock) : (s.setOffered v).coeff = s.coeff := rfl
@[simp] theorem State.setOffered_gain (s : State) (v : Option RawBlock) : (s.setOffered v).gain = s.gain := rfl
@[simp] theorem State.setOffered_inp (s : State) (v : Option RawBlock) : (s.setOffered v).inp = s.inp := rfl
@[simp] theorem State.setOffered_out (s : State) (v : Option RawBlock) : (s.setOffered v).out = s.out := rfl
@[simp] theorem State.setOffered_reply (s : State) (v : Option RawBlock) : (s.setOffered v).reply = s.reply := rfl
@[simp] theorem State.setOffered_offered (s : State) (v : Option RawBlock) : (s.setOffered v).offered = v := rfl
@[simp] theorem State.setOffered_sink (s : State) (v : Option RawBlock) : (s.setOffered v).sink = s.sink := rfl
@[simp] theorem State.setOffered_sinkReady (s : State) (v : Option RawBlock) : (s.setOffered v).sinkReady = s.sinkReady := rfl
@[simp] theorem State.setOffered_stop (s : State) (v : Option RawBlock) : (s.setOffered v).stop = s.stop := rfl
@[simp] theorem State.setOffered_resetReq (s : State) (v : Option RawBlock) : (s.setOffered v).resetReq = s.resetReq := rfl
@[simp] theorem State.setOffered_running (s : State) (v : Option RawBlock) : (s.setOffered v).running = s.running := rfl
@[simp] theorem State.setOffered_source (s : State) (v : Option RawBlock) : (s.setOffered v).source = s.source := rfl
@[simp] theorem State.setOffered_requests (s : State) (v : Option RawBlock) : (s.setOffered v).requests = s.requests := rfl

@[simp] theorem State.setSink_prev (s : State) (v : List RawBlock) : (s.setSink v).prev = s.prev := rfl
@[simp] theorem State.setSink_hist (s : State) (v : List RawBlock) : (s.setSink v).hist = s.hist := rfl
@[simp] theorem State.setSink_fault (s : State) (v : List RawBlock) : (s.setSink v).fault = s.fault := rfl
@[simp] theorem State.setSink_seq (s : State) (v : List RawBlock) : (s.setSink v).seq = s.seq := rfl
@[simp] theorem State.setSink_coeff (s : State) (v : List RawBlock) : (s.setSink v).coeff = s.coeff := rfl
@[simp] theorem State.setSink_gain (s : State) (v : List RawBlock) : (s.setSink v).gain = s.gain := rfl
@[simp] theorem State.setSink_inp (s : State) (v : List RawBlock) : (s.setSink v).inp = s.inp := rfl
@[simp] theorem State.setSink_out (s : State) (v : List RawBlock) : (s.setSink v).out = s.out := rfl
@[simp] theorem State.setSink_reply (s : State) (v : List RawBlock) : (s.setSink v).reply = s.reply := rfl
@[simp] theorem State.setSink_offered (s : State) (v : List RawBlock) : (s.setSink v).offered = s.offered := rfl
@[simp] theorem State.setSink_sink (s : State) (v : List RawBlock) : (s.setSink v).sink = v := rfl
@[simp] theorem State.setSink_sinkReady (s : State) (v : List RawBlock) : (s.setSink v).sinkReady = s.sinkReady := rfl
@[simp] theorem State.setSink_stop (s : State) (v : List RawBlock) : (s.setSink v).stop = s.stop := rfl
@[simp] theorem State.setSink_resetReq (s : State) (v : List RawBlock) : (s.setSink v).resetReq = s.resetReq := rfl
@[simp] theorem State.setSink_running (s : State) (v : List RawBlock) : (s.setSink v).running = s.running := rfl
@[simp] theorem State.setSink_source (s : State) (v : List RawBlock) : (s.setSink v).source = s.source := rfl
@[simp] theorem State.setSink_requests (s : State) (v : List RawBlock) : (s.setSink v).requests = s.requests := rfl

@[simp] theorem State.setResetReq_prev (s : State) (v : Bool) : (s.setResetReq v).prev = s.prev := rfl
@[simp] theorem State.setResetReq_hist (s : State) (v : Bool) : (s.setResetReq v).hist = s.hist := rfl
@[simp] theorem State.setResetReq_fault (s : State) (v : Bool) : (s.setResetReq v).fault = s.fault := rfl
@[simp] theorem State.setResetReq_seq (s : State) (v : Bool) : (s.setResetReq v).seq = s.seq := rfl
@[simp] theorem State.setResetReq_coeff (s : State) (v : Bool) : (s.setResetReq v).coeff = s.coeff := rfl
@[simp] theorem State.setResetReq_gain (s : State) (v : Bool) : (s.setResetReq v).gain = s.gain := rfl
@[simp] theorem State.setResetReq_inp (s : State) (v : Bool) : (s.setResetReq v).inp = s.inp := rfl
@[simp] theorem State.setResetReq_out (s : State) (v : Bool) : (s.setResetReq v).out = s.out := rfl
@[simp] theorem State.setResetReq_reply (s : State) (v : Bool) : (s.setResetReq v).reply = s.reply := rfl
@[simp] theorem State.setResetReq_offered (s : State) (v : Bool) : (s.setResetReq v).offered = s.offered := rfl
@[simp] theorem State.setResetReq_sink (s : State) (v : Bool) : (s.setResetReq v).sink = s.sink := rfl
@[simp] theorem State.setResetReq_sinkReady (s : State) (v : Bool) : (s.setResetReq v).sinkReady = s.sinkReady := rfl
@[simp] theorem State.setResetReq_stop (s : State) (v : Bool) : (s.setResetReq v).stop = s.stop := rfl
@[simp] theorem State.setResetReq_resetReq (s : State) (v : Bool) : (s.setResetReq v).resetReq = v := rfl
@[simp] theorem State.setResetReq_running (s : State) (v : Bool) : (s.setResetReq v).running = s.running := rfl
@[simp] theorem State.setResetReq_source (s : State) (v : Bool) : (s.setResetReq v).source = s.source := rfl
@[simp] theorem State.setResetReq_requests (s : State) (v : Bool) : (s.setResetReq v).requests = s.requests := rfl

@[simp] theorem State.setRunning_prev (s : State) (v : Bool) : (s.setRunning v).prev = s.prev := rfl
@[simp] theorem State.setRunning_hist (s : State) (v : Bool) : (s.setRunning v).hist = s.hist := rfl
@[simp] theorem State.setRunning_fault (s : State) (v : Bool) : (s.setRunning v).fault = s.fault := rfl
@[simp] theorem State.setRunning_seq (s : State) (v : Bool) : (s.setRunning v).seq = s.seq := rfl
@[simp] theorem State.setRunning_coeff (s : State) (v : Bool) : (s.setRunning v).coeff = s.coeff := rfl
@[simp] theorem State.setRunning_gain (s : State) (v : Bool) : (s.setRunning v).gain = s.gain := rfl
@[simp] theorem State.setRunning_inp (s : State) (v : Bool) : (s.setRunning v).inp = s.inp := rfl
@[simp] theorem State.setRunning_out (s : State) (v : Bool) : (s.setRunning v).out = s.out := rfl
@[simp] theorem State.setRunning_reply (s : State) (v : Bool) : (s.setRunning v).reply = s.reply := rfl
@[simp] theorem State.setRunning_offered (s : State) (v : Bool) : (s.setRunning v).offered = s.offered := rfl
@[simp] theorem State.setRunning_sink (s : State) (v : Bool) : (s.setRunning v).sink = s.sink := rfl
@[simp] theorem State.setRunning_sinkReady (s : State) (v : Bool) : (s.setRunning v).sinkReady = s.sinkReady := rfl
@[simp] theorem State.setRunning_stop (s : State) (v : Bool) : (s.setRunning v).stop = s.stop := rfl
@[simp] theorem State.setRunning_resetReq (s : State) (v : Bool) : (s.setRunning v).resetReq = s.resetReq := rfl
@[simp] theorem State.setRunning_running (s : State) (v : Bool) : (s.setRunning v).running = v := rfl
@[simp] theorem State.setRunning_source (s : State) (v : Bool) : (s.setRunning v).source = s.source := rfl
@[simp] theorem State.setRunning_requests (s : State) (v : Bool) : (s.setRunning v).requests = s.requests := rfl

@[simp] theorem State.setSource_prev (s : State) (v : List RawBlock) : (s.setSource v).prev = s.prev := rfl
@[simp] theorem State.setSource_hist (s : State) (v : List RawBlock) : (s.setSource v).hist = s.hist := rfl
@[simp] theorem State.setSource_fault (s : State) (v : List RawBlock) : (s.setSource v).fault = s.fault := rfl
@[simp] theorem State.setSource_seq (s : State) (v : List RawBlock) : (s.setSource v).seq = s.seq := rfl
@[simp] theorem State.setSource_coeff (s : State) (v : List RawBlock) : (s.setSource v).coeff = s.coeff := rfl
@[simp] theorem State.setSource_gain (s : State) (v : List RawBlock) : (s.setSource v).gain = s.gain := rfl
@[simp] theorem State.setSource_inp (s : State) (v : List RawBlock) : (s.setSource v).inp = s.inp := rfl
@[simp] theorem State.setSource_out (s : State) (v : List RawBlock) : (s.setSource v).out = s.out := rfl
@[simp] theorem State.setSource_reply (s : State) (v : List RawBlock) : (s.setSource v).reply = s.reply := rfl
@[simp] theorem State.setSource_offered (s : State) (v : List RawBlock) : (s.setSource v).offered = s.offered := rfl
@[simp] theorem State.setSource_sink (s : State) (v : List RawBlock) : (s.setSource v).sink = s.sink := rfl
@[simp] theorem State.setSource_sinkReady (s : State) (v : List RawBlock) : (s.setSource v).sinkReady = s.sinkReady := rfl
@[simp] theorem State.setSource_stop (s : State) (v : List RawBlock) : (s.setSource v).stop = s.stop := rfl
@[simp] theorem State.setSource_resetReq (s : State) (v : List RawBlock) : (s.setSource v).resetReq = s.resetReq := rfl
@[simp] theorem State.setSource_running (s : State) (v : List RawBlock) : (s.setSource v).running = s.running := rfl
@[simp] theorem State.setSource_source (s : State) (v : List RawBlock) : (s.setSource v).source = v := rfl
@[simp] theorem State.setSource_requests (s : State) (v : List RawBlock) : (s.setSource v).requests = s.requests := rfl

@[simp] theorem State.setRequests_prev (s : State) (v : List Request) : (s.setRequests v).prev = s.prev := rfl
@[simp] theorem State.setRequests_hist (s : State) (v : List Request) : (s.setRequests v).hist = s.hist := rfl
@[simp] theorem State.setRequests_fault (s : State) (v : List Request) : (s.setRequests v).fault = s.fault := rfl
@[simp] theorem State.setRequests_seq (s : State) (v : List Request) : (s.setRequests v).seq = s.seq := rfl
@[simp] theorem State.setRequests_coeff (s : State) (v : List Request) : (s.setRequests v).coeff = s.coeff := rfl
@[simp] theorem State.setRequests_gain (s : State) (v : List Request) : (s.setRequests v).gain = s.gain := rfl
@[simp] theorem State.setRequests_inp (s : State) (v : List Request) : (s.setRequests v).inp = s.inp := rfl
@[simp] theorem State.setRequests_out (s : State) (v : List Request) : (s.setRequests v).out = s.out := rfl
@[simp] theorem State.setRequests_reply (s : State) (v : List Request) : (s.setRequests v).reply = s.reply := rfl
@[simp] theorem State.setRequests_offered (s : State) (v : List Request) : (s.setRequests v).offered = s.offered := rfl
@[simp] theorem State.setRequests_sink (s : State) (v : List Request) : (s.setRequests v).sink = s.sink := rfl
@[simp] theorem State.setRequests_sinkReady (s : State) (v : List Request) : (s.setRequests v).sinkReady = s.sinkReady := rfl
@[simp] theorem State.setRequests_stop (s : State) (v : List Request) : (s.setRequests v).stop = s.stop := rfl
@[simp] theorem State.setRequests_resetReq (s : State) (v : List Request) : (s.setRequests v).resetReq = s.resetReq := rfl
@[simp] theorem State.setRequests_running (s : State) (v : List Request) : (s.setRequests v).running = s.running := rfl
@[simp] theorem State.setRequests_source (s : State) (v : List Request) : (s.setRequests v).source = s.source := rfl
@[simp] theorem State.setRequests_requests (s : State) (v : List Request) : (s.setRequests v).requests = v := rfl

@[simp] theorem State.loadIn_prev (s : State) (bs : RawBlock) : (s.loadIn bs).prev = s.prev := rfl
@[simp] theorem State.loadIn_hist (s : State) (bs : RawBlock) : (s.loadIn bs).hist = s.hist := rfl
@[simp] theorem State.loadIn_fault (s : State) (bs : RawBlock) : (s.loadIn bs).fault = s.fault := rfl
@[simp] theorem State.loadIn_seq (s : State) (bs : RawBlock) : (s.loadIn bs).seq = s.seq := rfl
@[simp] theorem State.loadIn_coeff (s : State) (bs : RawBlock) : (s.loadIn bs).coeff = s.coeff := rfl
@[simp] theorem State.loadIn_gain (s : State) (bs : RawBlock) : (s.loadIn bs).gain = s.gain := rfl
@[simp] theorem State.loadIn_inp (s : State) (bs : RawBlock) : (s.loadIn bs).inp = Block.ofBytes bs := rfl
@[simp] theorem State.loadIn_out (s : State) (bs : RawBlock) : (s.loadIn bs).out = s.out := rfl
@[simp] theorem State.loadIn_reply (s : State) (bs : RawBlock) : (s.loadIn bs).reply = s.reply := rfl
@[simp] theorem State.loadIn_offered (s : State) (bs : RawBlock) : (s.loadIn bs).offered = s.offered := rfl
@[simp] theorem State.loadIn_sink (s : State) (bs : RawBlock) : (s.loadIn bs).sink = s.sink := rfl
@[simp] theorem State.loadIn_sinkReady (s : State) (bs : RawBlock) : (s.loadIn bs).sinkReady = s.sinkReady := rfl
@[simp] theorem State.loadIn_stop (s : State) (bs : RawBlock) : (s.loadIn bs).stop = s.stop := rfl
@[simp] theorem State.loadIn_resetReq (s : State) (bs : RawBlock) : (s.loadIn bs).resetReq = s.resetReq := rfl
@[simp] theorem State.loadIn_running (s : State) (bs : RawBlock) : (s.loadIn bs).running = s.running := rfl
@[simp] theorem State.loadIn_source (s : State) (bs : RawBlock) : (s.loadIn bs).source = s.source := rfl
@[simp] theorem State.loadIn_requests (s : State) (bs : RawBlock) : (s.loadIn bs).requests = s.requests := rfl

end Sys2Proof.Machine
end

