-- ==== Sys2Proof/Laws/Memory.lean ====
section
/-! SUPPORT. The laws of the two address spaces: reads after writes, the canonical form, and what loading, reading and writing whole blocks
does (R40 to R45, R52). -/

namespace Sys2Proof.Machine

/-! ## Reading one byte -/

@[simp] theorem Memory.read_nil (a : Nat) : Memory.read a [] = unlistedByte := rfl

theorem Memory.read_pair (a : Nat) (c : Host.Cell) (m : Memory) :
    Memory.read a (c :: m) = if c.1 = a then c.2 else Memory.read a m := rfl

/-- Every listed offset of `m` lies above `a`. -/
def Memory.above (a : Nat) (m : Memory) : Prop := ∀ c ∈ m, a < c.1

theorem Memory.read_of_above {a : Nat} : ∀ {m : Memory}, Memory.above a m → Memory.read a m = unlistedByte
  | [], _ => rfl
  | c :: m, h => by
    have hc : a < c.1 := h c (by simp)
    rw [Memory.read_pair, if_neg (by omega)]
    exact Memory.read_of_above fun d hd => h d (by simp [hd])

theorem Memory.wf_pair (c : Host.Cell) (m : Memory) :
    Memory.wf (c :: m) = true ↔ c.2 ≠ unlistedByte ∧ Memory.above c.1 m ∧ Memory.wf m = true := by
  simp [Memory.wf, Memory.above, and_assoc]

theorem Memory.read_cons_same {a : Nat} {m : Memory} (b : Byte) (h : Memory.above a m) :
    Memory.read a (Memory.cons a b m) = b := by
  unfold Memory.cons
  split
  · simp_all [Memory.read_of_above h]
  · simp [Memory.read_pair]

theorem Memory.read_cons_other {x a : Nat} (b : Byte) (m : Memory) (h : x ≠ a) :
    Memory.read x (Memory.cons a b m) = Memory.read x m := by
  unfold Memory.cons
  split
  · rfl
  · simp [Memory.read_pair, Ne.symm h]

theorem Memory.above_cons {x a : Nat} {b : Byte} {m : Memory} (hx : x < a) (h : Memory.above x m) :
    Memory.above x (Memory.cons a b m) := by
  unfold Memory.cons
  split
  · exact h
  · intro c hc
    rcases List.mem_cons.mp hc with rfl | hc
    · exact hx
    · exact h c hc

theorem Memory.wf_cons {a : Nat} {b : Byte} {m : Memory} (ha : Memory.above a m) (h : Memory.wf m = true) :
    Memory.wf (Memory.cons a b m) = true := by
  unfold Memory.cons
  split
  · exact h
  · exact (Memory.wf_pair _ _).mpr ⟨by assumption, ha, h⟩

/-! ## Writing one byte -/

theorem Memory.read_write_other {x a : Nat} (b : Byte) (h : x ≠ a) :
    ∀ m : Memory, Memory.read x (Memory.write a b m) = Memory.read x m
  | [] => Memory.read_cons_other b [] h
  | c :: m => by
    unfold Memory.write
    split
    · rw [Memory.read_pair, Memory.read_pair, Memory.read_write_other b h m]
    · split
      · rw [Memory.read_cons_other b m h, Memory.read_pair, if_neg (by omega)]
      · exact Memory.read_cons_other b _ h

theorem Memory.read_write_same {a : Nat} (b : Byte) :
    ∀ {m : Memory}, Memory.wf m = true → Memory.read a (Memory.write a b m) = b
  | [], _ => Memory.read_cons_same b (by simp [Memory.above])
  | c :: m, h => by
    obtain ⟨_, hab, hm⟩ := (Memory.wf_pair c m).mp h
    unfold Memory.write
    split
    · rw [Memory.read_pair, if_neg (by omega), Memory.read_write_same b hm]
    · split
      · exact Memory.read_cons_same b (by subst_vars; exact hab)
      · refine Memory.read_cons_same b fun d hd => ?_
        rcases List.mem_cons.mp hd with rfl | hd
        · omega
        · have := hab d hd; omega

theorem Memory.above_write {x a : Nat} (b : Byte) (hx : x < a) :
    ∀ {m : Memory}, Memory.above x m → Memory.above x (Memory.write a b m)
  | [], h => Memory.above_cons hx h
  | c :: m, h => by
    have hm : Memory.above x m := fun d hd => h d (by simp [hd])
    unfold Memory.write
    split
    · intro d hd
      rcases List.mem_cons.mp hd with rfl | hd
      · exact h d (by simp)
      · exact Memory.above_write b hx hm d hd
    · split
      · exact Memory.above_cons hx hm
      · exact Memory.above_cons hx h

/-- Every write keeps the canonical form. -/
theorem Memory.wf_write (a : Nat) (b : Byte) : ∀ {m : Memory}, Memory.wf m = true → Memory.wf (Memory.write a b m) = true
  | [], _ => Memory.wf_cons (by simp [Memory.above]) rfl
  | c :: m, h => by
    obtain ⟨hc, hab, hm⟩ := (Memory.wf_pair c m).mp h
    unfold Memory.write
    split
    · exact (Memory.wf_pair _ _).mpr ⟨hc, Memory.above_write b (by assumption) hab, Memory.wf_write a b hm⟩
    · split
      · exact Memory.wf_cons (by subst_vars; exact hab) hm
      · refine Memory.wf_cons (fun d hd => ?_) h
        rcases List.mem_cons.mp hd with rfl | hd
        · omega
        · have := hab d hd; omega

/-- The offsets a write lists are the ones listed before and its own. -/
theorem Memory.mem_write {a : Nat} {b : Byte} {d : Host.Cell} :
    ∀ {m : Memory}, d ∈ Memory.write a b m → d ∈ m ∨ d.1 = a
  | [], h => by
    simp only [Memory.write, Memory.cons] at h
    split at h
    · exact .inl h
    · simp at h; exact .inr (by simp [h])
  | c :: m, h => by
    have hcons : ∀ {l : Memory}, d ∈ Memory.cons a b l → d ∈ l ∨ d.1 = a := by
      intro l hl
      unfold Memory.cons at hl
      split at hl
      · exact .inl hl
      · rcases List.mem_cons.mp hl with rfl | hl
        · exact .inr rfl
        · exact .inl hl
    unfold Memory.write at h
    split at h
    · rcases List.mem_cons.mp h with rfl | h
      · exact .inl (by simp)
      · rcases Memory.mem_write h with h | h
        · exact .inl (by simp [h])
        · exact .inr h
    · split at h
      · rcases hcons h with h | h
        · exact .inl (by simp [h])
        · exact .inr h
      · exact hcons h

/-! ## Blocks -/

theorem Block.wf_iff (b : Block) : b.wf = true ↔ Memory.wf b.cells = true ∧ ∀ c ∈ b.cells, c.1 < b.len := by
  simp [Block.wf]

theorem Block.wf_empty : Block.empty.wf = true := rfl

theorem Block.wf_blank (n : Nat) : (Block.blank n).wf = true := rfl

/-- Everything a byte write can do: it answers a block of the same length, canonical if the block was, that reads the byte at its offset and
every other byte as before. -/
theorem Block.writeByte_spec {b b' : Block} {a : Nat} {v : Byte} (h : b.writeByte a v = some b') :
    a < b.len ∧ b'.len = b.len ∧ (b.wf = true → b'.wf = true ∧ b'.readByte a = some v) ∧
      ∀ x, x ≠ a → b'.readByte x = b.readByte x := by
  unfold Block.writeByte at h
  split at h
  · cases h
    refine ⟨by assumption, rfl, fun hw => ?_, fun x hx => ?_⟩
    · obtain ⟨hm, hb⟩ := (Block.wf_iff b).mp hw
      refine ⟨(Block.wf_iff _).mpr ⟨Memory.wf_write _ _ hm, fun c hc => ?_⟩, ?_⟩
      · rcases Memory.mem_write hc with hc | hc
        · exact hb c hc
        · simpa [hc]
      · simp_all [Block.readByte, Memory.read_write_same]
    · simp [Block.readByte, Memory.read_write_other v hx]
  · cases h

theorem Block.writeByte_isSome {b : Block} {a : Nat} (v : Byte) (h : a < b.len) : ∃ b', b.writeByte a v = some b' :=
  ⟨_, if_pos h⟩

@[simp] theorem Block.length_bytes (b : Block) : b.bytes.length = b.len := by simp [Block.bytes]

theorem Block.getElem?_bytes (b : Block) (a : Nat) : b.bytes[a]? = b.readByte a := by
  unfold Block.bytes Block.readByte
  split <;> simp_all

/-! ## Loading a delivered block -/

theorem cellsFrom_above {x : Nat} : ∀ {a : Nat} {bs : List Byte}, x < a → Memory.above x (cellsFrom a bs)
  | _, [], _ => by simp [cellsFrom, Memory.above]
  | _, _ :: _, h => Memory.above_cons h (cellsFrom_above (by omega))

theorem cellsFrom_wf : ∀ (a : Nat) (bs : List Byte), Memory.wf (cellsFrom a bs) = true
  | _, [] => rfl
  | a, _ :: bs => Memory.wf_cons (cellsFrom_above (by omega)) (cellsFrom_wf (a + 1) bs)

theorem cellsFrom_lt : ∀ {a : Nat} {bs : List Byte} {c : Host.Cell}, c ∈ cellsFrom a bs → c.1 < a + bs.length
  | a, [], c, h => by simp [cellsFrom] at h
  | a, b :: bs, c, h => by
    unfold cellsFrom Memory.cons at h
    split at h
    · have := cellsFrom_lt h; simp; omega
    · rcases List.mem_cons.mp h with rfl | h
      · simp
      · have := cellsFrom_lt h; simp; omega

theorem read_cellsFrom : ∀ (bs : List Byte) (a i : Nat), i < bs.length → some (Memory.read (a + i) (cellsFrom a bs)) = bs[i]?
  | [], _, _, h => by simp at h
  | b :: bs, a, 0, _ => by
    simp [cellsFrom, Memory.read_cons_same b (cellsFrom_above (x := a) (a := a + 1) (bs := bs) (by omega))]
  | b :: bs, a, i + 1, h => by
    rw [cellsFrom, Memory.read_cons_other b _ (by omega), List.getElem?_cons_succ,
      ← read_cellsFrom bs (a + 1) i (by simpa using h)]
    congr 2
    omega

/-- A delivered block is loaded in canonical form. -/
theorem Block.wf_ofBytes (bs : RawBlock) : (Block.ofBytes bs).wf = true :=
  (Block.wf_iff _).mpr ⟨cellsFrom_wf 0 bs, fun c hc => by simpa [Block.ofBytes] using cellsFrom_lt (a := 0) hc⟩

@[simp] theorem Block.len_ofBytes (bs : RawBlock) : (Block.ofBytes bs).len = bs.length := rfl

/-- A loaded block reads as the bytes delivered. -/
theorem Block.readByte_ofBytes (bs : RawBlock) (a : Nat) : (Block.ofBytes bs).readByte a = bs[a]? := by
  unfold Block.readByte
  split
  · rename_i h
    simpa [Block.ofBytes] using read_cellsFrom bs 0 a h
  · rename_i h
    exact (List.getElem?_eq_none (by simpa using h)).symm

theorem Block.bytes_ofBytes (bs : RawBlock) : (Block.ofBytes bs).bytes = bs :=
  List.ext_getElem? fun a => by rw [Block.getElem?_bytes, Block.readByte_ofBytes]

/-! ## Frames of a delivered block -/

/-- The frames of a byte list, four bytes each (R41, R62); what is left over is no frame. -/
def framesOf : List Byte → List (Sample × Sample)
  | a :: b :: c :: d :: rest => (sampleOf a b, sampleOf c d) :: framesOf rest
  | _ => []

theorem framesOf_append : ∀ (n : Nat) (bs cs : List Byte), bs.length = 4 * n → framesOf (bs ++ cs) = framesOf bs ++ framesOf cs
  | 0, [], cs, _ => by simp [framesOf]
  | n + 1, a :: b :: c :: d :: rest, cs, h => by
    simp only [List.length_cons] at h
    simp [framesOf, framesOf_append n rest cs (by omega)]

theorem length_framesOf : ∀ (n : Nat) (bs : List Byte), bs.length = 4 * n → (framesOf bs).length = n
  | 0, [], _ => rfl
  | n + 1, a :: b :: c :: d :: rest, h => by
    simp only [List.length_cons] at h
    simp [framesOf, length_framesOf n rest (by omega)]

theorem memRead2_ofBytes {bs : RawBlock} {a : Nat} {lo hi : Byte} (hl : bs[a]? = some lo) (hh : bs[a + 1]? = some hi) :
    memRead2 (Block.ofBytes bs) a = some (sampleOf lo hi) := by
  simp [memRead2, Block.readByte_ofBytes, hl, hh]

theorem readFrames_drop (all : RawBlock) :
    ∀ (n i : Nat) (bs : List Byte), all.drop (4 * i) = bs → bs.length = 4 * n →
      readFrames (Block.ofBytes all) i n = some (framesOf bs)
  | 0, _, [], _, _ => rfl
  | n + 1, i, a :: b :: c :: d :: rest, hd, hn => by
    simp only [List.length_cons] at hn
    have at_ : ∀ j, all[4 * i + j]? = (a :: b :: c :: d :: rest)[j]? := fun j => by rw [← hd, List.getElem?_drop]
    have h0 : all[4 * i]? = some a := by simpa using at_ 0
    have h1 := at_ 1; have h2 := at_ 2; have h3 := at_ 3
    have hrest : all.drop (4 * (i + 1)) = rest := by
      rw [show 4 * (i + 1) = 4 * i + 4 by omega, ← List.drop_drop, hd]
      rfl
    have hl := memRead2_ofBytes (a := 4 * i) h0 h1
    simp [readFrames, readFrame, hl, memRead2_ofBytes h2 h3, framesOf,
      readFrames_drop all n (i + 1) rest hrest (by omega)]

/-- Reading all frames of a delivered block of whole frames never leaves the block, and gives its frames in order (R44, R103). -/
theorem readFrames_ofBytes {bs : RawBlock} (h : bs.length % 4 = 0) :
    readFrames (Block.ofBytes bs) 0 (bs.length / 4) = some (framesOf bs) :=
  readFrames_drop bs (bs.length / 4) 0 bs (by simp) (by omega)

/-! ## Writing an output block -/

theorem memWrite2_spec {b : Block} {a : Nat} (v : Sample) (hw : b.wf = true) (h : a + 1 < b.len) :
    ∃ b', memWrite2 b a v = some b' ∧ b'.wf = true ∧ b'.len = b.len ∧ b'.readByte a = some (lowByte v) ∧
      b'.readByte (a + 1) = some (highByte v) ∧ ∀ x, x ≠ a → x ≠ a + 1 → b'.readByte x = b.readByte x := by
  obtain ⟨b1, h1⟩ := Block.writeByte_isSome (b := b) (a := a) (lowByte v) (by omega)
  obtain ⟨_, l1, k1, o1⟩ := Block.writeByte_spec h1
  obtain ⟨b2, h2⟩ := Block.writeByte_isSome (b := b1) (a := a + 1) (highByte v) (by omega)
  obtain ⟨_, l2, k2, o2⟩ := Block.writeByte_spec h2
  obtain ⟨w1, r1⟩ := k1 hw
  obtain ⟨w2, r2⟩ := k2 w1
  refine ⟨b2, by simp [memWrite2, h1, h2], w2, by omega, ?_, r2, fun x hx hx' => ?_⟩
  · rw [o2 a (by omega), r1]
  · rw [o2 x hx', o1 x hx]

theorem writeFrame_spec {b : Block} {i : Nat} (z : Int × Int) (hw : b.wf = true) (h : 4 * i + 3 < b.len) :
    ∃ b', writeFrame b i z = some b' ∧ b'.wf = true ∧ b'.len = b.len ∧
      (∀ j, j < 4 → b'.readByte (4 * i + j) = (outFrame z)[j]?) ∧
      ∀ x, (x < 4 * i ∨ 4 * i + 4 ≤ x) → b'.readByte x = b.readByte x := by
  obtain ⟨b1, e1, w1, l1, r0, r1, o1⟩ := memWrite2_spec (a := 4 * i) (enc16 z.1) hw (by omega)
  obtain ⟨b2, e2, w2, l2, r2, r3, o2⟩ := memWrite2_spec (a := 4 * i + 2) (enc16 z.2) w1 (by omega)
  refine ⟨b2, by simp [writeFrame, e1, e2], w2, by omega, fun j hj => ?_, fun x hx => ?_⟩
  · rcases j with _ | _ | _ | _ | j
    · rw [o2 _ (by omega) (by omega)]; simpa [outFrame] using r0
    · rw [o2 _ (by omega) (by omega)]; simpa [outFrame] using r1
    · simpa [outFrame] using r2
    · simpa [outFrame] using r3
    · omega
  · rw [o2 x (by omega) (by omega), o1 x (by omega) (by omega)]

theorem length_flatMap_outFrame (zs : List (Int × Int)) : (zs.flatMap outFrame).length = 4 * zs.length := by
  induction zs with
  | nil => rfl
  | cons z zs ih => simp [ih, outFrame]; omega

theorem writeFrames_spec :
    ∀ (zs : List (Int × Int)) (b : Block) (i : Nat), b.wf = true → 4 * (i + zs.length) ≤ b.len →
      ∃ b', writeFrames b i zs = some b' ∧ b'.wf = true ∧ b'.len = b.len ∧
        (∀ j, j < 4 * zs.length → b'.readByte (4 * i + j) = (zs.flatMap outFrame)[j]?) ∧
        ∀ x, x < 4 * i → b'.readByte x = b.readByte x
  | [], b, i, hw, _ => ⟨b, rfl, hw, rfl, by simp, fun _ _ => rfl⟩
  | z :: zs, b, i, hw, hl => by
    simp only [List.length_cons] at hl
    obtain ⟨b1, e1, w1, l1, r1, o1⟩ := writeFrame_spec (i := i) z hw (by omega)
    obtain ⟨b2, e2, w2, l2, r2, o2⟩ := writeFrames_spec zs b1 (i + 1) w1 (by omega)
    refine ⟨b2, by simp [writeFrames, e1, e2], w2, by omega, fun j hj => ?_, fun x hx => ?_⟩
    · simp only [List.length_cons] at hj
      by_cases h : j < 4
      · rw [o2 _ (by omega), r1 j h, List.flatMap_cons, List.getElem?_append_left (by simpa [outFrame] using h)]
      · have h' := r2 (j - 4) (by omega)
        rw [show 4 * (i + 1) + (j - 4) = 4 * i + j by omega] at h'
        rw [h', List.flatMap_cons, List.getElem?_append_right (by simp [outFrame]; omega)]
        simp [outFrame]
    · rw [o2 x (by omega), o1 x (by omega)]

end Sys2Proof.Machine
end

