-- ==== Sys2Proof/Laws/Codec.lean ====
section
/-! SUPPORT. What the Sample Codec's operations can do (R100 to R115). -/

namespace Sys2Proof.Machine

/-! ## NaN operands of ENC -/

/-- Scaling makes a NaN of a NaN and of nothing else (R107). -/
theorem isNaN_scaled (v : F64) : isNaN (scaled v) = isNaN v := by
  rw [scaled, isNaN_fmul, show isNaN scale = false by decide, show isZero scale = false by decide,
    show isInf scale = false by decide]
  simp

theorem trunc_eq_none_iff (x : F64) : trunc x = none ↔ isNaN x = true := by
  unfold trunc
  by_cases h : isNaN x = true
  · rw [if_pos h]
    exact ⟨fun _ => h, fun _ => rfl⟩
  · rw [if_neg h]
    refine ⟨fun hn => ?_, fun hn => absurd hn h⟩
    split at hn <;> cases hn

theorem quantise_eq_none_iff (v : F64) : quantise v = none ↔ isNaN v = true := by
  rw [quantise, trunc_eq_none_iff, isNaN_scaled]

theorem exists_quantise {v : F64} (h : isNaN v = false) : ∃ e, quantise v = some e :=
  Option.ne_none_iff_exists'.mp fun hn => by rw [(quantise_eq_none_iff v).mp hn] at h; cases h

theorem encSamples_cons (l r : F64) (ls rs : List F64) :
    encSamples (l :: ls) (r :: rs) =
      match encL l, encR r, encSamples ls rs with
      | some zl, some zr, some zs => some ((zl, zr) :: zs)
      | _, _, _ => none := rfl

/-- Encoding answers exactly when no element is NaN (R113, R114). -/
theorem encSamples_isSome_iff :
    ∀ {left right : List F64}, left.length = right.length →
      ((encSamples left right).isSome = true ↔ left.any isNaN = false ∧ right.any isNaN = false)
  | [], [], _ => by simp [encSamples]
  | l :: ls, r :: rs, h => by
    have ih := encSamples_isSome_iff (left := ls) (right := rs) (by simpa using h)
    rw [encSamples_cons, List.any_cons, List.any_cons]
    rcases hl : quantise l with _ | el <;> rcases hr : quantise r with _ | er
    · simp [encL, hl, (quantise_eq_none_iff l).mp hl]
    · simp [encL, hl, (quantise_eq_none_iff l).mp hl]
    · simp [encL, encR, hl, hr, (quantise_eq_none_iff r).mp hr]
    · have nl : isNaN l = false := by
        rw [← Bool.not_eq_true, ← quantise_eq_none_iff, hl]; simp
      have nr : isNaN r = false := by
        rw [← Bool.not_eq_true, ← quantise_eq_none_iff, hr]; simp
      rcases hz : encSamples ls rs with _ | zs <;> simp_all [encL, encR]

/-- One pair of integers a frame: the left integer of the left element, the right one of the right element (R114). -/
theorem encSamples_spec :
    ∀ {left right : List F64} {zs : List (Int × Int)}, left.length = right.length → encSamples left right = some zs →
      zs.length = left.length ∧
        ∀ (i : Nat) (l r : F64), left[i]? = some l → right[i]? = some r → ∃ zl zr, encL l = some zl ∧ encR r = some zr ∧ zs[i]? = some (zl, zr)
  | [], [], zs, _, h => by simp [encSamples] at h; simp [← h]
  | l :: ls, r :: rs, zs, hlen, h => by
    rw [encSamples_cons] at h
    split at h
    · rename_i zl zr zs' hl hr hz
      cases h
      obtain ⟨h1, h2⟩ := encSamples_spec (by simpa using hlen) hz
      refine ⟨by simp [h1], fun i a b ha hb => ?_⟩
      rcases i with _ | i
      · simp at ha hb
        subst ha hb
        exact ⟨zl, zr, hl, hr, by simp⟩
      · simpa using h2 i a b (by simpa using ha) (by simpa using hb)
    · cases h

/-- Encoding a concatenation is encoding the parts (element-wise, R114). -/
theorem encSamples_append (b d : List F64) :
    ∀ {a c : List F64}, a.length = c.length →
      encSamples (a ++ b) (c ++ d) =
        match encSamples a c, encSamples b d with
        | some zs, some ws => some (zs ++ ws)
        | _, _ => none
  | [], [], _ => by
    rcases h : encSamples b d with _ | ws <;> simp [encSamples, h]
  | x :: xs, y :: ys, h => by
    have ih := encSamples_append b d (a := xs) (c := ys) (by simpa using h)
    rw [List.cons_append, List.cons_append, encSamples_cons, encSamples_cons, ih]
    rcases encL x with _ | zl <;> rcases encR y with _ | zr <;> rcases encSamples xs ys with _ | zs <;>
      rcases encSamples b d with _ | ws <;> simp

/-! ## The output block -/

/-- The integers of any list of frames are stored without leaving the block: `4 * L` bytes, canonical, each frame's four bytes in order (R114). -/
theorem encodeBlock_spec (zs : List (Int × Int)) :
    ∃ out, encodeBlock zs = some out ∧ out.wf = true ∧ out.len = 4 * zs.length ∧ out.bytes = zs.flatMap outFrame := by
  obtain ⟨out, h, hw, hl, hb, _⟩ := writeFrames_spec zs (Block.blank (4 * zs.length)) 0 (Block.wf_blank _) (by simp [Block.blank])
  refine ⟨out, h, hw, hl, List.ext_getElem? fun j => ?_⟩
  rw [Block.getElem?_bytes]
  rcases Nat.lt_or_ge j (4 * zs.length) with hj | hj
  · simpa using hb j hj
  · rw [List.getElem?_eq_none (by rw [length_flatMap_outFrame]; exact hj), Block.readByte, hl]
    exact if_neg (by simpa [Block.blank] using hj)

/-! ## The operations -/

/-- The two streams of a byte list, as lists (R103). -/
def channel0 (bs : List Byte) : List F64 := (framesOf bs).map fun f => dec1 (sext16 f.1)
def channel1 (bs : List Byte) : List F64 := (framesOf bs).map fun f => dec1 (sext16 f.2)

theorem channel0_append {n : Nat} {bs : List Byte} (cs : List Byte) (h : bs.length = 4 * n) :
    channel0 (bs ++ cs) = channel0 bs ++ channel0 cs := by
  simp [channel0, framesOf_append n bs cs h]

theorem length_channel0 {n : Nat} {bs : List Byte} (h : bs.length = 4 * n) : (channel0 bs).length = n := by
  simp [channel0, length_framesOf n bs h]

theorem length_channel1 {n : Nat} {bs : List Byte} (h : bs.length = 4 * n) : (channel1 bs).length = n := by
  simp [channel1, length_framesOf n bs h]

theorem malformedLen_eq_false_iff (n : Nat) : malformedLen n = false ↔ n % 4 = 0 := by simp [malformedLen]

theorem malformedLen_eq_true_iff (n : Nat) : malformedLen n = true ↔ n % 4 ≠ 0 := by simp [malformedLen]

/-- Decoding a delivered block of whole frames never leaves the block. -/
theorem decodeStreams_ofBytes {bs : RawBlock} (h : bs.length % 4 = 0) :
    decodeStreams (Block.ofBytes bs) = some (channel0 bs, channel1 bs) := by
  rw [decodeStreams, Block.len_ofBytes, readFrames_ofBytes h]
  rfl

/-- Everything `DEC` can do: it never stops. -/
theorem execDec_eq (inp : RawBlock) (s : State) :
    execDec inp s = .next ((s.loadIn inp).setReply
      (if inp.length % 4 = 0 then .streams (channel0 inp) (channel1 inp) else .malformedBlock 1 inp.length)) := by
  unfold execDec
  by_cases h : inp.length % 4 = 0
  · rw [(malformedLen_eq_false_iff _).mpr h, if_neg (by simp), State.loadIn_inp, decodeStreams_ofBytes h, if_pos h]
  · rw [(malformedLen_eq_true_iff _).mpr h, if_pos rfl, if_neg h]
    rfl

/-- Everything `ENC` can do: the two refusals, or the output block of the integers. -/
theorem execEnc_eq (left right : List F64) (s : State) :
    (left.length ≠ right.length ∧ execEnc left right s = .refused .encodeLengthMismatch) ∨
    (left.length = right.length ∧ encSamples left right = none ∧ execEnc left right s = .refused .encodeNaN) ∨
    ∃ zs out, left.length = right.length ∧ encSamples left right = some zs ∧ encodeBlock zs = some out ∧ out.wf = true ∧
      out.len = 4 * left.length ∧ out.bytes = zs.flatMap outFrame ∧
      execEnc left right s = .next ((s.setOut out).setReply (.block out.bytes)) := by
  unfold execEnc
  by_cases h : left.length = right.length
  · rcases hz : encSamples left right with _ | zs
    · exact .inr (.inl ⟨h, rfl, by simp [h]⟩)
    · obtain ⟨out, ho, hw, hl, hb⟩ := encodeBlock_spec zs
      have := (encSamples_spec h hz).1
      exact .inr (.inr ⟨zs, out, h, rfl, ho, hw, by omega, hb, by simp [h, ho]⟩)
  · exact .inl ⟨h, by simp [h]⟩

/-! ## Values of samples -/

theorem sext16_eq (v : Sample) : sext16 v = v.toInt := by
  unfold sext16; rw [BitVec.toInt_eq_toNat_cond]; 
  have := v.isLt
  split <;> split <;> omega

theorem natAbs_toInt_le (v : Sample) : v.toInt.natAbs ≤ 2^15 := by
  have h1 := BitVec.toInt_lt (x := v); have h2 := BitVec.le_toInt (x := v)
  omega

/-- `i2f` of a sample's value is exact (R7). -/
theorem i2f_spec (z : Int) (h : z.natAbs ≤ 2^15) :
   isFinite (i2f z) = true ∧ magnitude (i2f z) = z.natAbs * 2^1074 ∧ signBit (i2f z) = decide (z < 0) := by
  unfold i2f
  exact magnitude_roundPack _ (by omega) (by omega) (by simp) (by
    have : z.natAbs * 2^1074 ≤ 2^15 * 2^1074 := Nat.mul_le_mul_right _ h
    rw [← pow_add] at this
    have h2 : 2^(15+1074) < 2^2098 := Nat.pow_lt_pow_right (by omega) (by omega)
    omega)

theorem magnitude_scale : magnitude scale = 2^15 * 2^1074 := by
  unfold magnitude
  rw [show expField scale = 1038 by decide, show fracField scale = 0 by decide, if_neg (by omega), ← pow_add, Nat.add_zero, ← pow_add]

/-- `dec1` of a sample's value is exact (R102). -/
theorem dec1_spec (z : Int) (h : z.natAbs ≤ 2^15) :
   isFinite (dec1 z) = true ∧ magnitude (dec1 z) = z.natAbs * 2^1059 ∧ signBit (dec1 z) = decide (z < 0) := by
  obtain ⟨h1, h2, h3⟩ := i2f_spec z h
  unfold dec1
  rw [fdiv_finite h1 (by decide) (by decide), h2, h3, magnitude_scale, show signBit scale = false by decide]
  have := magnitude_roundPack (num := z.natAbs * 2^1074 * 2^1074) (den := 2^15*2^1074) (m := z.natAbs) (e := 1059) (decide (z<0) != false) (by positivity) (by omega)
    (by rw [show (2:Nat)^1074 = 2^1059 * 2^15 by rw [← pow_add]]; ring) (by
    have : z.natAbs * 2^1059 ≤ 2^15 * 2^1059 := Nat.mul_le_mul_right _ h
    rw [← pow_add] at this
    have h2 := pow_lt_inf (k := 15+1059) (by omega)
    omega)
  simpa using this

theorem scaledInt_dec1 (v : Sample) : scaledInt (dec1 v.toInt) = v.toInt * 2^1059 := by
  obtain ⟨h1, h2, h3⟩ := dec1_spec v.toInt (natAbs_toInt_le v)
  rw [scaledInt_eq, h2, h3]
  push_cast
  by_cases hz : v.toInt < 0
  · simp [hz, abs_of_neg hz]
  · simp [hz, abs_of_nonneg (not_lt.mp hz)]

/-- Scaling a finite value is exact or saturates (R107, R112). -/
theorem scaled_finite {v : F64} (h : isFinite v = true) :
   (magnitude v * 2^15 < 2^2098 → isFinite (scaled v) = true ∧ scaledInt (scaled v) = scaledInt v * 32768) ∧
   (2^2098 ≤ magnitude v * 2^15 → isInf (scaled v) = true ∧ signBit (scaled v) = signBit v) := by
  unfold scaled
  rw [fmul_finite h (by decide), magnitude_scale, show signBit scale = false by decide]
  obtain ⟨m, e, hm, hme⟩ := exists_significand v
  constructor
  · intro hlt
    have := magnitude_roundPack (num := magnitude v * (2^15*2^1074)) (den := 2^1074) (m := m) (e := e+15) (signBit v != false) (by positivity) hm (by rw [hme]; ring) (by rw [pow_add, ← Nat.mul_assoc, ← hme]; exact hlt)
    refine ⟨this.1, ?_⟩
    rw [scaledInt_eq, this.2.1, this.2.2, scaledInt_eq, hme]
    push_cast
    rw [pow_add]
    cases signBit v <;> simp <;> ring
  · intro hge
    have h1 : infLow ≤ roundLow (magnitude v * (2^15*2^1074)) (2^1074) := le_roundLow (by positivity) le_rfl (by rw [magLow_infLow]; calc 2^2098 * 2^1074 ≤ magnitude v * 2^15 * 2^1074 := Nat.mul_le_mul_right _ hge
         _ = _ := by ring)
    have h2 := roundLow_le_inf (magnitude v * (2^15*2^1074)) (2^1074)
    have h3 : roundLow (magnitude v * (2^15*2^1074)) (2^1074) = infLow := by omega
    rw [h3, isInf_pack _ le_rfl, signBit_pack _ (by decide)]
    simp

/-! ## Stored frames -/

theorem enc16_eq (z : Int) : enc16 z = BitVec.ofInt 16 z := by
  apply BitVec.eq_of_toNat_eq
  simp only [enc16, BitVec.toNat_ofInt, BitVec.toNat_ofNat]
  omega

theorem sampleOf_bytes (v : Sample) : sampleOf (lowByte v) (highByte v) = v := by
  apply BitVec.eq_of_toNat_eq
  have := v.isLt
  simp [sampleOf, lowByte, highByte]; omega

theorem getElem?_flatMap_outFrame : ∀ (zs : List (Int × Int)) (i k : Nat), k < 4 → (zs.flatMap outFrame)[4*i+k]? = (zs[i]?).bind (fun z => (outFrame z)[k]?)
  | [], i, k, _ => by simp
  | z :: zs, 0, k, h => by
    rw [List.flatMap_cons, List.getElem?_append_left (by simp [outFrame]; omega)]; simp
  | z :: zs, i+1, k, h => by
    rw [List.flatMap_cons, List.getElem?_append_right (by simp [outFrame]; omega)]
    rw [show 4*(i+1)+k - (outFrame z).length = 4*i+k by simp [outFrame]; omega, getElem?_flatMap_outFrame zs i k h]; simp

/-- The two samples of a stored frame (R114). -/
theorem memRead2_of_bytes {zs : List (Int×Int)} {out : Block} (h : out.bytes = zs.flatMap outFrame) {i} {zl zr} (hi : zs[i]? = some (zl, zr)) :
   memRead2 out (4*i) = some (enc16 zl) ∧ memRead2 out (4*i+2) = some (enc16 zr) := by
  have hb : ∀ k, k < 4 → out.readByte (4*i+k) = (outFrame (zl,zr))[k]? := by
    intro k hk; rw [← Block.getElem?_bytes, h, getElem?_flatMap_outFrame zs i k hk, hi]; rfl
  have b0 := hb 0 (by omega); have b1 := hb 1 (by omega); have b2 := hb 2 (by omega); have b3 := hb 3 (by omega)
  simp [outFrame] at b0 b1 b2 b3
  constructor
  · unfold memRead2; rw [b0, b1]; simp [sampleOf_bytes]
  · unfold memRead2; rw [b2, show 4*i+2+1 = 4*i+3 by omega, b3]; simp [sampleOf_bytes]

end Sys2Proof.Machine
end

