-- ==== Sys2Proof/Laws/PerInstr.lean ====
section
/-! SUPPORT. Statements made for every operation, one lemma per constructor. -/

namespace Sys2Proof.Laws.RoundTrip

/-- The operation's encoding (R67, R72) decodes to it, operands included, and its select code is not the reserved one (R70). -/
def Statement (i : Instr) : Prop := decode (encode i) = .ok i ∧ (encode i).opsel ≠ 0b111#3

theorem rst : Statement .rst := ⟨rfl, by decide⟩

theorem dec (inp : RawBlock) : Statement (.dec inp) := ⟨rfl, by show (0b001#3 : BitVec 3) ≠ 0b111#3; decide⟩

theorem qdm (x : List F64) : Statement (.qdm x) := ⟨rfl, by show (0b010#3 : BitVec 3) ≠ 0b111#3; decide⟩

theorem fir (x : List F64) : Statement (.fir x) := ⟨rfl, by show (0b011#3 : BitVec 3) ≠ 0b111#3; decide⟩

theorem amp (x : List F64) : Statement (.amp x) := ⟨rfl, by show (0b100#3 : BitVec 3) ≠ 0b111#3; decide⟩

theorem enc (left right : List F64) : Statement (.enc left right) := ⟨rfl, by show (0b101#3 : BitVec 3) ≠ 0b111#3; decide⟩

theorem proc (inp : RawBlock) : Statement (.proc inp) := ⟨rfl, by show (0b110#3 : BitVec 3) ≠ 0b111#3; decide⟩

end Sys2Proof.Laws.RoundTrip
end

