-- ==== Sys2Proof/Laws/Stages.lean ====
section
/-! SUPPORT. What the folds of the demodulator, the filter and the gain stage can do (R120 to R152). -/

namespace Sys2Proof.Machine

@[simp] theorem qdmSeq_nil (p : F64) : qdmSeq p [] = ([], p) := rfl

@[simp] theorem qdmSeq_cons (p x : F64) (xs : List F64) :
    qdmSeq p (x :: xs) = (fmul p x :: (qdmSeq x xs).1, (qdmSeq x xs).2) := rfl

@[simp] theorem length_qdmSeq : ∀ (p : F64) (x : List F64), (qdmSeq p x).1.length = x.length
  | _, [] => rfl
  | _, x :: xs => by simp [length_qdmSeq x xs]

theorem qdmSeq_append : ∀ (p : F64) (a b : List F64),
    qdmSeq p (a ++ b) = ((qdmSeq p a).1 ++ (qdmSeq (qdmSeq p a).2 b).1, (qdmSeq (qdmSeq p a).2 b).2)
  | _, [], _ => rfl
  | _, x :: a, b => by simp [qdmSeq_append x a b]

@[simp] theorem toList_shiftIn (h : Vector F64 27) (x : F64) : (shiftIn h x).toList = h.toList.tail ++ [x] := rfl

@[simp] theorem firSeq_nil (c h : Vector F64 27) : firSeq c h [] = ([], h) := rfl

@[simp] theorem firSeq_cons (c h : Vector F64 27) (x : F64) (xs : List F64) :
    firSeq c h (x :: xs) = (dot27 (shiftIn h x) c :: (firSeq c (shiftIn h x) xs).1, (firSeq c (shiftIn h x) xs).2) := rfl

@[simp] theorem length_firSeq (c : Vector F64 27) : ∀ (h : Vector F64 27) (x : List F64), (firSeq c h x).1.length = x.length
  | _, [] => rfl
  | h, x :: xs => by simp [length_firSeq c (shiftIn h x) xs]

theorem firSeq_append (c : Vector F64 27) : ∀ (h : Vector F64 27) (a b : List F64),
    firSeq c h (a ++ b) = ((firSeq c h a).1 ++ (firSeq c (firSeq c h a).2 b).1, (firSeq c (firSeq c h a).2 b).2)
  | _, [], _ => rfl
  | h, x :: a, b => by simp [firSeq_append c (shiftIn h x) a b]

@[simp] theorem length_ampSeq (g : F64) (x : List F64) : (ampSeq g x).length = x.length := by simp [ampSeq]

theorem ampSeq_append (g : F64) (a b : List F64) : ampSeq g (a ++ b) = ampSeq g a ++ ampSeq g b := by simp [ampSeq]

/-- The demodulator's output at an index: the sample before it and the sample (R121, R122). -/
theorem qdmSeq_getElem? : ∀ (p : F64) (x : List F64) (i : Nat), i < x.length →
   (qdmSeq p x).1[i]? = some (fmul (if i = 0 then p else x.getD (i-1) posZero) (x.getD i posZero))
  | p, x :: xs, 0, _ => by simp
  | p, x :: xs, i+1, h => by
    simp only [List.length_cons] at h
    rw [qdmSeq_cons, List.getElem?_cons_succ, qdmSeq_getElem? x xs i (by omega)]
    rcases i with _ | i <;> simp

theorem qdmSeq_snd : ∀ (p : F64) (x : List F64), (qdmSeq p x).2 = x.getLastD p
  | p, [] => rfl
  | p, x :: xs => by rw [qdmSeq_cons]; simp only [qdmSeq_snd x xs]; cases xs <;> rfl

/-- The history ends as the last 27 samples (R134). -/
theorem firSeq_snd (c) : ∀ (h : Vector F64 27) (x : List F64), (firSeq c h x).2.toList = (h.toList ++ x).drop x.length
  | h, [] => by simp
  | h, x :: xs => by
    rw [firSeq_cons]; simp only [firSeq_snd c _ xs, toList_shiftIn]
    have : h.toList ≠ [] := by intro h0; have := congrArg List.length h0; simp at this
    obtain ⟨a, l, hl⟩ := List.exists_cons_of_ne_nil this
    rw [hl]; simp

theorem dotFrom_eq (acc) : ∀ ps, dotFrom acc ps = ps.foldl (fun acc p => fadd acc (fmul p.1 p.2)) acc
  | [] => rfl
  | p :: ps => by rw [dotFrom, dotFrom_eq]; rfl

/-- The filter's output at an index: the ordered sum over the window that ends with that sample (R131, R132). -/
theorem firSeq_getElem? (c) : ∀ (h : Vector F64 27) (x : List F64) (i : Nat), i < x.length →
   (firSeq c h x).1[i]? = some (orderedSum (((h.toList ++ x).drop (i+1)).take 27) c.toList)
  | h, x :: xs, i, hi => by
    have : h.toList ≠ [] := by intro h0; have := congrArg List.length h0; simp at this
    obtain ⟨a, l, hl⟩ := List.exists_cons_of_ne_nil this
    have hlen : l.length = 26 := by have := congrArg List.length hl; simp at this; omega
    rcases i with _ | i
    · rw [firSeq_cons]; simp only [List.getElem?_cons_zero, dot27, dotFrom_eq, orderedSum, toList_shiftIn, hl]
      simp [List.take_append, hlen, List.take_of_length_le (show l.length ≤ 27 by omega)]
    · simp only [List.length_cons] at hi
      rw [firSeq_cons, List.getElem?_cons_succ, firSeq_getElem? c _ xs i (by omega), toList_shiftIn, hl]
      simp

end Sys2Proof.Machine
end

