-- ==== Sys2Proof/Laws/Pipeline.lean ====
section
/-! SUPPORT. What `PROC` can do, said once (R160 to R164). -/

namespace Sys2Proof.Machine

theorem procRefusal_eq_none_iff (s : State) : procRefusal s = none ↔ s.fault = false ∧ s.seq = .idle := by
  unfold procRefusal
  rcases s.fault with _ | _ <;> rcases s.seq with _ | _ | _ <;> simp

@[simp] theorem length_amplified (s : State) (s0 : List F64) : (amplified s s0).length = s0.length := by simp [amplified]

/-- Everything `PROC` can do: a refusal by name, the exception, the refusal of a NaN, or the finished block. -/
theorem execProc_cases (inp : RawBlock) (s : State) :
    (∃ r, procRefusal s = some r ∧ execProc inp s = .refused r) ∨
    (procRefusal s = none ∧ inp.length % 4 ≠ 0 ∧ execProc inp s = .next (faultStream (acceptBlock s inp) inp.length)) ∨
    (procRefusal s = none ∧ inp.length % 4 = 0 ∧ encSamples (amplified s (channel0 inp)) (amplified s (channel0 inp)) = none ∧
      execProc inp s = .refused .encodeNaN) ∨
    ∃ zs out, procRefusal s = none ∧ inp.length % 4 = 0 ∧
      encSamples (amplified s (channel0 inp)) (amplified s (channel0 inp)) = some zs ∧ encodeBlock zs = some out ∧
      out.wf = true ∧ out.len = inp.length ∧ out.bytes = zs.flatMap outFrame ∧
      execProc inp s = .next (finishBlock (afterStages (acceptBlock s inp) (channel0 inp)) out) := by
  unfold execProc
  rcases hr : procRefusal s with _ | r
  · by_cases h : inp.length % 4 = 0
    · have hd : decodeStreams (acceptBlock s inp).inp = some (channel0 inp, channel1 inp) := decodeStreams_ofBytes h
      have ha : amplified (acceptBlock s inp) (channel0 inp) = amplified s (channel0 inp) := rfl
      rcases hz : encSamples (amplified s (channel0 inp)) (amplified s (channel0 inp)) with _ | zs
      · refine .inr (.inr (.inl ⟨rfl, h, rfl, ?_⟩))
        simp [(malformedLen_eq_false_iff _).mpr h, runStages, hd, ha, hz]
      · obtain ⟨out, ho, hw, hl, hb⟩ := encodeBlock_spec zs
        have hzl := (encSamples_spec rfl hz).1
        rw [length_amplified, length_channel0 (n := inp.length / 4) (by omega)] at hzl
        refine .inr (.inr (.inr ⟨zs, out, rfl, h, rfl, ho, hw, by omega, hb, ?_⟩))
        simp [(malformedLen_eq_false_iff _).mpr h, runStages, hd, ha, hz, ho]
    · refine .inr (.inl ⟨rfl, h, ?_⟩)
      simp [(malformedLen_eq_true_iff _).mpr h]
  · exact .inl ⟨r, rfl, rfl⟩

/-- The stages over a concatenation are the stages over the parts, `PREV` and `H` carried on (R167). -/
theorem amplified_append (s : State) (a b : List F64) :
    amplified s (a ++ b) = amplified s a ++ amplified (afterStages s a) b := by
  simp [amplified, afterStages, qdmSeq_append, firSeq_append, ampSeq_append]

theorem afterStages_append (s : State) (a b : List F64) : afterStages s (a ++ b) = afterStages (afterStages s a) b := by
  simp [afterStages, qdmSeq_append, firSeq_append, State.setPrev, State.setHist]

/-! ## Where the finished block goes -/

theorem offerBlock_ready {s : State} (bs : RawBlock) (h : s.sinkReady = true) : offerBlock s bs = deliverBlock s bs := if_pos h

theorem offerBlock_waits {s : State} (bs : RawBlock) (h : s.sinkReady = false) : offerBlock s bs = s.setOffered (some bs) := by
  simp [offerBlock, h]

/-! ## An accepted block -/

theorem framesOf_getElem? : ∀ (bs : List Byte) (i : Nat), 4 * i + 3 < bs.length →
    (framesOf bs)[i]? = some (sampleAt bs (4*i), sampleAt bs (4*i+2))
  | a :: b :: c :: d :: rest, 0, _ => by simp [framesOf, sampleAt]
  | a :: b :: c :: d :: rest, i+1, h => by
    simp only [List.length_cons] at h
    rw [framesOf, List.getElem?_cons_succ, framesOf_getElem? rest i (by omega)]
    simp [sampleAt, show 4 * (i+1) = 4*i+1+1+1+1 by omega]
  | [], _, h => by simp at h
  | [_], _, h => by simp at h
  | [_,_], _, h => by simp at h
  | [_,_,_], _, h => by simp at h

theorem of_accepting {s : State} (h : s.accepting = true) : procRefusal s = none ∧ s.fault = false ∧ s.seq = .idle := by
  unfold State.accepting at h; simp at h
  exact ⟨(procRefusal_eq_none_iff s).mpr h, h⟩

/-- An accepted block of whole frames that completed. -/
theorem proc_of_next {bs} {s t : State} (ha : s.accepting = true) (hl : bs.length % 4 = 0) (h : exec (.proc bs) s = .next t) :
   ∃ zs out, encSamples (amplified s (channel0 bs)) (amplified s (channel0 bs)) = some zs ∧ encodeBlock zs = some out ∧ out.wf = true ∧ out.len = bs.length ∧ out.bytes = zs.flatMap outFrame ∧ execProc bs s = .next t ∧ t = finishBlock (afterStages (acceptBlock s bs) (channel0 bs)) out := by
  rcases execProc_cases bs s with ⟨r, h1, h2⟩ | ⟨_, h1, _⟩ | ⟨_, _, _, h1⟩ | ⟨zs', out', _, _, h1, h2, h3, h4, h5, h6⟩
  · rw [(of_accepting ha).1] at h1; cases h1
  · exact absurd hl h1
  · have := h.symm.trans h1; cases this
  · have := h.symm.trans h6; cases this
    exact ⟨zs', out', h1, h2, h3, h4, h5, h6, rfl⟩

/-- An accepted block of whole frames completes when no element to encode is NaN. -/
theorem proc_next_of_encSamples {bs} {s : State} {zs} (ha : s.accepting = true) (hl : bs.length % 4 = 0) (hz : encSamples (amplified s (channel0 bs)) (amplified s (channel0 bs)) = some zs) :
   ∃ out, encodeBlock zs = some out ∧ out.wf = true ∧ out.len = bs.length ∧ out.bytes = zs.flatMap outFrame ∧ exec (.proc bs) s = .next (finishBlock (afterStages (acceptBlock s bs) (channel0 bs)) out) := by
  rcases execProc_cases bs s with ⟨r, h1, h2⟩ | ⟨_, h1, _⟩ | ⟨_, _, h1, _⟩ | ⟨zs', out', _, _, h1, h2, h3, h4, h5, h6⟩
  · rw [(of_accepting ha).1] at h1; cases h1
  · exact absurd hl h1
  · rw [hz] at h1; cases h1
  · rw [hz] at h1; cases h1; exact ⟨_, h2, h3, h4, h5, h6⟩

theorem finishBlock_fields (s : State) (out) : (finishBlock s out).prev = s.prev ∧ (finishBlock s out).hist = s.hist ∧ (finishBlock s out).out = out ∧ (finishBlock s out).fault = s.fault ∧ (finishBlock s out).coeff = s.coeff ∧ (finishBlock s out).gain = s.gain ∧ (finishBlock s out).inp = s.inp := by
  unfold finishBlock offerBlock; split <;> simp [deliverBlock]

theorem finishBlock_sink {s : State} {out} (h : s.sinkReady = true) : (finishBlock s out).sink = s.sink ++ [out.bytes] := by
  unfold finishBlock; rw [offerBlock_ready]; rfl; exact h

end Sys2Proof.Machine
end

