-- ==== Sys2Proof/Laws/Step.lean ====
section
/-! SUPPORT. What an operation and a step can do, said once (R11, R67, R170, R193). -/

namespace Sys2Proof.Machine

/-- What a `PROC` that completes leaves alone, and what it replies. -/
theorem execProc_frame {b} {s t : State} (h : execProc b s = .next t) : s.fault = false ∧ s.seq = .idle ∧ t.coeff = s.coeff ∧ t.gain = s.gain ∧ t.sinkReady = s.sinkReady ∧ t.stop = s.stop ∧ t.resetReq = s.resetReq ∧ t.running = s.running ∧ t.source = s.source ∧ t.requests = s.requests ∧ t.reply = (if b.length % 4 = 0 then .none else .malformedBlock 1 b.length) := by
  rcases execProc_cases b s with ⟨r, hr, he⟩ | ⟨hr, hl, he⟩ | ⟨hr, hl, _, he⟩ | ⟨zs, out, hr, hl, _, _, _, _, _, he⟩ <;> rw [he] at h <;> cases h
  · have := (procRefusal_eq_none_iff s).mp hr
    simp [this, faultStream, raiseMalformedBlock, acceptBlock, hl, malformedCause]
  · have := (procRefusal_eq_none_iff s).mp hr
    simp only [finishBlock, offerBlock]
    split <;> simp [this, afterStages, acceptBlock, deliverBlock]

/-- Everything `PROC` can have done when it answers a next state. -/
theorem execProc_next_cases {b} {s t : State} (h : execProc b s = .next t) : s.fault = false ∧ s.seq = .idle ∧ ((b.length % 4 ≠ 0 ∧ t = faultStream (acceptBlock s b) b.length) ∨ ∃ out, out.wf = true ∧ out.len = b.length ∧ b.length % 4 = 0 ∧ t = finishBlock (afterStages (acceptBlock s b) (channel0 b)) out) := by
  rcases execProc_cases b s with ⟨r, hr, he⟩ | ⟨hr, hl, he⟩ | ⟨hr, hl, _, he⟩ | ⟨zs, out, hr, hl, _, _, h1, h2, _, he⟩ <;> rw [he] at h <;> cases h
  · have := (procRefusal_eq_none_iff s).mp hr
    exact ⟨this.1, this.2, .inl ⟨hl, rfl⟩⟩
  · have := (procRefusal_eq_none_iff s).mp hr
    exact ⟨this.1, this.2, .inr ⟨out, h1, h2, hl, rfl⟩⟩

/-- Everything an operation can have done when it answers a next state. -/
theorem exec_cases {i s t} (h : exec i s = .next t) : (i = .rst ∧ execRst s = .next t) ∨ (∃ b, i = .dec b ∧ t = (s.loadIn b).setReply
      (if b.length % 4 = 0 then .streams (channel0 b) (channel1 b) else .malformedBlock 1 b.length)) ∨ (∃ x, i = .qdm x ∧ t = ((s.setPrev (qdmSeq s.prev x).2).setReply (.samples (qdmSeq s.prev x).1))) ∨ (∃ x, i = .fir x ∧ t = ((s.setHist (firSeq s.coeff s.hist x).2).setReply (.samples (firSeq s.coeff s.hist x).1))) ∨ (∃ x, i = .amp x ∧ t = (s.setReply (.samples (ampSeq s.gain x)))) ∨ (∃ l r out, i = .enc l r ∧ out.wf = true ∧ t = ((s.setOut out).setReply (.block out.bytes))) ∨ ∃ b, i = .proc b ∧ execProc b s = .next t := by
  cases i with
  | rst => exact .inl ⟨rfl, h⟩
  | dec b => rw [show exec (.dec b) s = execDec b s from rfl, execDec_eq] at h; cases h; exact .inr (.inl ⟨b, rfl, rfl⟩)
  | qdm x => cases h; exact .inr (.inr (.inl ⟨x, rfl, rfl⟩))
  | fir x => cases h; exact .inr (.inr (.inr (.inl ⟨x, rfl, rfl⟩)))
  | amp x => cases h; exact .inr (.inr (.inr (.inr (.inl ⟨x, rfl, rfl⟩))))
  | enc l r =>
    rcases execEnc_eq l r s with ⟨_, he⟩ | ⟨_, _, he⟩ | ⟨zs, out, _, _, _, hw, _, _, he⟩ <;> rw [show exec (.enc l r) s = execEnc l r s from rfl, he] at h <;> cases h
    exact .inr (.inr (.inr (.inr (.inr (.inl ⟨l, r, out, rfl, hw, rfl⟩)))))
  | proc b => exact .inr (.inr (.inr (.inr (.inr (.inr ⟨b, rfl, h⟩)))))

theorem exec_no_fault (i s f) : exec i s ≠ .fault f := by
  cases i with
  | rst => intro h; cases h
  | dec b => intro h; rw [show exec (.dec b) s = execDec b s from rfl, execDec_eq] at h; cases h
  | qdm x => intro h; cases h
  | fir x => intro h; cases h
  | amp x => intro h; cases h
  | enc l r =>
    intro h
    rcases execEnc_eq l r s with ⟨_, he⟩ | ⟨_, _, he⟩ | ⟨zs, out, _, _, _, hw, _, _, he⟩ <;> rw [show exec (.enc l r) s = execEnc l r s from rfl, he] at h <;> cases h
  | proc b =>
    intro h
    rcases execProc_cases b s with ⟨r, hr, he⟩ | ⟨hr, hl, he⟩ | ⟨hr, hl, _, he⟩ | ⟨zs, out, hr, hl, _, _, h1, h2, _, he⟩ <;> rw [show exec (.proc b) s = execProc b s from rfl, he] at h <;> cases h

theorem takeOffered_requests (s : State) : (takeOffered s).requests = s.requests ∧ (takeOffered s).running = s.running := by
  unfold takeOffered; split
  · split <;> simp [deliverBlock]
  · simp

theorem takeOffered_frame (s : State) : (takeOffered s).coeff = s.coeff ∧ (takeOffered s).gain = s.gain ∧ (takeOffered s).fault = s.fault := by
  unfold takeOffered; split
  · split <;> simp [deliverBlock]
  · simp

/-! ## A reset -/

/-- Only the encoding of `RST` decodes to it (R67). -/
theorem decode_rst {r : OpRequest} (h : decode r = .ok .rst) : r = encode .rst := by
  rcases r with ⟨c, o⟩
  unfold decode at h
  split at h <;> cases h
  rename_i hc _
  simp only [encode, OpRequest.mk.injEq]
  exact ⟨BitVec.eq_of_toNat_eq hc, by assumption⟩

/-- A request asks for a reset exactly when it is the encoding of `RST`. -/
theorem asksForReset_iff (q : Request) : asksForReset q = true ↔ q = .op (encode .rst) := by
  constructor
  · intro h
    unfold asksForReset at h
    split at h
    · cases h
    · rename_i r
      split at h
      · rename_i hd; rw [decode_rst hd]
      · cases h
  · rintro rfl; rfl

/-- When a reset is requested: the line, or an `RST` that is the oldest request. -/
theorem resetWanted_iff (s : State) :
    resetWanted s = true ↔ s.resetReq = true ∨ ∃ rest, s.requests = .op (encode .rst) :: rest := by
  unfold resetWanted oldestIsRst
  rw [Bool.or_eq_true]
  rcases s.requests with _ | ⟨q, rest⟩ <;> simp [asksForReset_iff]

/-! Taking a reset request off changes the line or the requests, and nothing else. -/

@[simp] theorem takeReset_prev (s : State) : (takeReset s).prev = s.prev := by unfold takeReset; split <;> rfl
@[simp] theorem takeReset_hist (s : State) : (takeReset s).hist = s.hist := by unfold takeReset; split <;> rfl
@[simp] theorem takeReset_fault (s : State) : (takeReset s).fault = s.fault := by unfold takeReset; split <;> rfl
@[simp] theorem takeReset_seq (s : State) : (takeReset s).seq = s.seq := by unfold takeReset; split <;> rfl
@[simp] theorem takeReset_coeff (s : State) : (takeReset s).coeff = s.coeff := by unfold takeReset; split <;> rfl
@[simp] theorem takeReset_gain (s : State) : (takeReset s).gain = s.gain := by unfold takeReset; split <;> rfl
@[simp] theorem takeReset_inp (s : State) : (takeReset s).inp = s.inp := by unfold takeReset; split <;> rfl
@[simp] theorem takeReset_out (s : State) : (takeReset s).out = s.out := by unfold takeReset; split <;> rfl
@[simp] theorem takeReset_reply (s : State) : (takeReset s).reply = s.reply := by unfold takeReset; split <;> rfl
@[simp] theorem takeReset_offered (s : State) : (takeReset s).offered = s.offered := by unfold takeReset; split <;> rfl
@[simp] theorem takeReset_sink (s : State) : (takeReset s).sink = s.sink := by unfold takeReset; split <;> rfl
@[simp] theorem takeReset_sinkReady (s : State) : (takeReset s).sinkReady = s.sinkReady := by unfold takeReset; split <;> rfl
@[simp] theorem takeReset_stop (s : State) : (takeReset s).stop = s.stop := by unfold takeReset; split <;> rfl
@[simp] theorem takeReset_running (s : State) : (takeReset s).running = s.running := by unfold takeReset; split <;> rfl
@[simp] theorem takeReset_source (s : State) : (takeReset s).source = s.source := by unfold takeReset; split <;> rfl
@[simp] theorem takeReset_resetReq (s : State) : (takeReset s).resetReq = false := by
  unfold takeReset
  rcases hr : s.resetReq with _ | _ <;> simp [hr]

/-! ## A request held back -/

/-- Only while a block is in progress is a request held back. -/
theorem heldBack_busy {i : Instr} {s : State} (h : heldBack i s = true) : s.seq = .busy := by
  unfold heldBack at h
  split at h <;> simp_all

/-- While a block is in progress only `RST` and `PROC` are not held back. -/
theorem not_heldBack {i : Instr} {s : State} (hs : s.seq = .busy) (h : heldBack i s = false) : i = .rst ∨ ∃ b, i = .proc b := by
  cases i <;> simp_all [heldBack]

@[simp] theorem heldBack_rst (s : State) : heldBack .rst s = false := rfl
@[simp] theorem heldBack_proc (b : RawBlock) (s : State) : heldBack (.proc b) s = false := rfl

/-- Everything a step can have done when it answers a next state. -/
theorem step_cases {s t : State} (h : step s = .next t) :
   (resetWanted s = true ∧ exec .rst (takeReset s) = .next t) ∨
   (resetWanted s = false ∧ ((
     s.running = true ∧ (t = takeOffered s ∨ ((takeOffered s).seq ≠ .busy ∧ t = honourStop (takeOffered s)) ∨ (∃ b rest t', exec (.proc b) (takeOffered s) = .next t' ∧ t = (t'.setSource rest).setRunning (!t'.fault)) ∨ ∃ r, t = ((takeOffered s).setReply (.refused r)).setRunning (!s.fault))) ∨
     (s.running = false ∧ (t = takeOffered s ∨ ∃ q rest, s.requests = q :: rest ∧ (t = ((((takeOffered s).setRequests rest).setRunning true).setReply .none) ∨ (∃ r, t = ((takeOffered s).setRequests rest).setReply (.refused r)) ∨ ∃ i r, q = .op r ∧ decode r = .ok i ∧ heldBack i (takeOffered s) = false ∧ exec i ((takeOffered s).setRequests rest) = .next t))))) := by
  unfold step driverStep at h
  have hreq := takeOffered_requests s
  rcases hr : resetWanted s with _ | _
  · rw [hr] at h
    right
    refine ⟨rfl, ?_⟩
    simp only [Bool.false_eq_true, if_false, hreq.2] at h
    rcases hrun : s.running with _ | _
    · right; refine ⟨rfl, ?_⟩
      rw [hrun] at h
      simp only [Bool.false_eq_true, if_false] at h
      unfold requestStep at h
      rw [hreq.1] at h
      rcases hq : s.requests with _ | ⟨q, rest⟩
      · rw [hq] at h; cases h; exact .inl rfl
      · rw [hq] at h
        rcases q with r | _
        · simp only at h
          split at h
          · rename_i i hi
            split at h
            · cases h; exact .inl rfl
            · rename_i hb
              right; refine ⟨_, rest, rfl, ?_⟩
              unfold answer at h
              split at h
              · rename_i he; cases h; exact .inr (.inr ⟨i, r, rfl, hi, by simpa using hb, he⟩)
              · cases h
              · split at h
                · cases h; exact .inr (.inl ⟨_, rfl⟩)
                · cases h
          · cases h; exact .inr ⟨_, rest, rfl, .inr (.inl ⟨_, rfl⟩)⟩
          · cases h
        · cases h; exact .inr ⟨_, rest, rfl, .inl rfl⟩
    · left; refine ⟨rfl, ?_⟩
      rw [hrun] at h
      simp only [if_true] at h
      unfold loopStep at h
      split at h
      · cases h; exact .inl rfl
      · split at h
        · cases h; right; left; exact ⟨by assumption, rfl⟩
        · split at h
          · cases h; exact .inl rfl
          · unfold loopAnswer at h
            split at h
            · rename_i he; cases h; exact .inr (.inr (.inl ⟨_, _, _, he, rfl⟩))
            · cases h
            · have hf : (takeOffered s).fault = s.fault := by
                unfold takeOffered; split
                · split <;> rfl
                · rfl
              split at h
              · cases h; rw [hf]; exact .inr (.inr (.inr ⟨_, rfl⟩))
              · cases h
  · rw [hr] at h; exact .inl ⟨rfl, h⟩

end Sys2Proof.Machine
end

