-- ==== Sys2Proof/Tests/Slice0.lean ====
section
/-! SUPPORT. Tests of the model against the spec's own examples and vectors (95_test_vectors.md), and for every statement with hypotheses a
witness: a state and operands that meet them. -/

namespace Sys2Proof.Tests

open Sys2Proof
open Sys2Proof.Machine

set_option Elab.async false

/-! ## Helpers -/

/-- Table `TA` of R141. -/
def tableA : Vector F64 27 :=
  Vector.ofFn fun j => if j.val = 0 ∨ j.val = 26 then 0x3FE0000000000000#64 else posZero

/-- Table `TD` of 95_test_vectors.md. -/
def tableD : Vector F64 27 := Vector.replicate 27 0x3FB999999999999A#64

/-- The state of R31 with a table and the reference gain. -/
def fresh (c : Vector F64 27) : State := { State.reset with coeff := c }

/-- The state of a next outcome. -/
def nextOf : Host.Outcome State Fault Refusal → Option State
  | .next t => some t
  | _ => none

/-- The refusal of a refused outcome. -/
def refusalOf : Host.Outcome State Fault Refusal → Option Refusal
  | .refused r => some r
  | _ => none

def replyOf (o : Host.Outcome State Fault Refusal) : Option Reply := (nextOf o).map (·.reply)
def sinkOf (o : Host.Outcome State Fault Refusal) : Option (List RawBlock) := (nextOf o).map (·.sink)
def prevOf (o : Host.Outcome State Fault Refusal) : Option F64 := (nextOf o).map (·.prev)
def seqOf (o : Host.Outcome State Fault Refusal) : Option SeqPos := (nextOf o).map (·.seq)
def faultOf (o : Host.Outcome State Fault Refusal) : Option Bool := (nextOf o).map (·.fault)
def histOf (o : Host.Outcome State Fault Refusal) (j : Nat) : Option F64 := (nextOf o).bind fun t => t.hist[j]?

/-- The four-frame block of R175 and P2. -/
def blockP2 : RawBlock :=
  [0x00#8, 0x04#8, 0xD2#8, 0x04#8, 0x00#8, 0x08#8, 0xFF#8, 0xFF#8, 0x00#8, 0xFC#8, 0xFF#8, 0x7F#8, 0x00#8, 0x80#8, 0x00#8, 0x80#8]

/-- The first two frames of `blockP2` and what `PROC` makes of them (P3). -/
def block1 : RawBlock := [0x00#8, 0x04#8, 0xD2#8, 0x04#8, 0x00#8, 0x08#8, 0xFF#8, 0xFF#8]
def out1 : RawBlock := [0x00#8, 0x00#8, 0xFF#8, 0x7F#8, 0x00#8, 0x19#8, 0xFF#8, 0x7F#8]
def nan : F64 := 0x7FF8000000000000#64
def posInf : F64 := 0x7FF0000000000000#64
def negInf : F64 := 0xFFF0000000000000#64
def one : F64 := 0x3FF0000000000000#64

/-! ## Well-formedness: an ill-formed term for each check -/

theorem test_wf_dec_length : Instr.wellFormed (.dec [0#8, 0#8]) = false := by decide
theorem test_wf_proc_length : Instr.wellFormed (.proc [0#8, 0#8, 0#8, 0#8, 0#8, 0#8]) = false := by decide
theorem test_wf_enc_length : Instr.wellFormed (.enc [one] []) = false := by decide
theorem test_wf_enc_nan : Instr.wellFormed (.enc [one] [nan]) = false := by decide
theorem test_wf_enc_nan_left : Instr.wellFormed (.enc [nan] [one]) = false := by decide
theorem test_wf_accepts :
    [Instr.rst, .dec [], .proc blockP2, .enc [one] [posInf], .qdm [nan], .fir [nan], .amp [nan]].all Instr.wellFormed = true := by decide
/-- `C[j] = j`, the table S4 calls not legal: not symmetric. -/
theorem test_wf_table_symmetric : coeffWellFormed (Vector.ofFn fun j => i2f j.val) = false := by decide +kernel
theorem test_wf_table_finite : coeffWellFormed (Vector.replicate 27 nan) = false := by decide
theorem test_wf_table_accepts : coeffWellFormed tableA = true ∧ coeffWellFormed tableD = true := by decide
theorem test_wf_gain : gainWellFormed posInf = false ∧ gainWellFormed Config.gain = true := by decide

/-! ## Decoding: the select codes as the table of R67 writes them -/

theorem test_decode_rst : decode ⟨0b000#3, .op0⟩ = .ok .rst := by decide
theorem test_decode_dec : decode ⟨0b001#3, .opb [0x01#8, 0x02#8]⟩ = .ok (.dec [0x01#8, 0x02#8]) := by decide
theorem test_decode_qdm : decode ⟨0b010#3, .ops [one]⟩ = .ok (.qdm [one]) := by decide
theorem test_decode_fir : decode ⟨0b011#3, .ops [one]⟩ = .ok (.fir [one]) := by decide
theorem test_decode_amp : decode ⟨0b100#3, .ops [one]⟩ = .ok (.amp [one]) := by decide
theorem test_decode_enc : decode ⟨0b101#3, .ops2 [one] [nan]⟩ = .ok (.enc [one] [nan]) := by decide
theorem test_decode_proc : decode ⟨0b110#3, .opb [0x01#8]⟩ = .ok (.proc [0x01#8]) := by decide
theorem test_decode_reserved : decode ⟨0b111#3, .op0⟩ = .error .reservedOp := by decide
/-- A request whose operands are of another format has no meaning in R67. -/
theorem test_decode_format : decode ⟨0b001#3, .op0⟩ = .error .operandFormat := by decide
theorem test_table_word_mask : decodeTableWord 8 0b11111110 = some (.proc []) ∧ decodeTableWord 8 0b00000111 = none := by decide

/-! ## RST, V7 -/

theorem test_rst_clears :
    nextOf (exec .rst { fresh tableA with prev := one, hist := tableD, fault := true, seq := .stopped }) = some (fresh tableA) := by decide +kernel

/-! ## DEC: R105, V1 -/

theorem test_dec_worked_example :
    replyOf (exec (.dec [0x00#8, 0x40#8, 0xFF#8, 0xFF#8, 0x00#8, 0x80#8, 0xFF#8, 0x7F#8]) (fresh tableA)) =
      some (.streams [0x3FE0000000000000#64, 0xBFF0000000000000#64] [0xBF00000000000000#64, 0x3FEFFFC000000000#64]) := by decide +kernel
theorem test_dec_malformed :
    replyOf (exec (.dec [0#8, 0#8, 0#8, 0#8, 0#8, 0#8]) (fresh tableA)) = some (.malformedBlock 1 6) ∧
      faultOf (exec (.dec [0#8, 0#8, 0#8, 0#8, 0#8, 0#8]) (fresh tableA)) = some false := by decide +kernel

/-! ## QDM: V3 -/

theorem test_qdm_from_reset :
    replyOf (exec (.qdm [0xBFF0000000000000#64, 0xBFF0000000000000#64, 0x3FEFFFC000000000#64, 0x3FEFFFC000000000#64, posZero, 0xBFE0000000000000#64])
        (fresh tableA)) =
      some (.samples [0x8000000000000000#64, 0x3FF0000000000000#64, 0xBFEFFFC000000000#64, 0x3FEFFF8000800000#64, 0x0000000000000000#64,
        0x8000000000000000#64]) := by decide +kernel
theorem test_qdm_continues :
    nextOf (exec (.qdm [0xBFE0000000000000#64, posZero]) { fresh tableA with prev := 0xBFE0000000000000#64 }) =
      some { fresh tableA with prev := posZero, reply := .samples [0x3FD0000000000000#64, 0x8000000000000000#64] } := by decide +kernel

/-! ## FIR: V4 -/

/-- The first three rows of the vector that pins the summation order: 0.1, 0.2, 0.3 into table `TD`. -/
theorem test_fir_inexact :
    replyOf (exec (.fir [0x3FB999999999999A#64, 0x3FC999999999999A#64, 0x3FD3333333333333#64]) (fresh tableD)) =
      some (.samples [0x3F847AE147AE147C#64, 0x3F9EB851EB851EBA#64, 0x3FAEB851EB851EB9#64]) := by decide +kernel

/-- Row 26 of that vector, as one sample on the history `0.0, 0.1, ..., 2.6`; newest first would end in `...0A3C`. -/
theorem test_fir_order :
    replyOf (exec (.fir [fdiv (i2f 27) (i2f 10)])
        { fresh tableD with hist := Vector.ofFn fun j => fdiv (i2f j.val) (i2f 10) }) =
      some (.samples [0x400E3D70A3D70A3D#64]) := by decide +kernel

/-! ## AMP: V5 -/

theorem test_amp :
    replyOf (exec (.amp [posZero, 0x8000000000000000#64, 0x3F50000000000000#64, 0xBFF0000000000000#64, 0x3F747AE147AE147B#64, 0x7FEFFFFFFFFFFFFF#64])
        (fresh tableA)) =
      some (.samples [posZero, 0x8000000000000000#64, 0x3FC9000000000000#64, 0xC069000000000000#64, 0x3FF0000000000000#64, posInf]) := by decide +kernel

/-! ## ENC: S6, V2, R115 -/

theorem test_enc_clamps :
    replyOf (exec (.enc [0x3FF8000000000000#64, 0xBFF8000000000000#64] [0x3FF8000000000000#64, 0xBFF8000000000000#64]) (fresh tableA)) =
      some (.block [0xFF#8, 0x7F#8, 0xFF#8, 0x7F#8, 0x00#8, 0x80#8, 0x00#8, 0xC0#8]) := by decide +kernel
/-- The value -30.517578125/32768 of V2, then the least subnormal, then -1.0, then minus infinity. -/
theorem test_enc_truncates_then_adds :
    replyOf (exec (.enc [0xBF4E848000000000#64, 0x0000000000000001#64, 0xBFF0000000000000#64, negInf]
        [0xBF4E848000000000#64, 0x0000000000000001#64, 0xBFF0000000000000#64, negInf]) (fresh tableA)) =
      some (.block [0xE2#8, 0xFF#8, 0xE2#8, 0x7F#8, 0x00#8, 0x00#8, 0xFF#8, 0x7F#8, 0x00#8, 0x80#8, 0x00#8, 0x00#8, 0x00#8, 0x80#8, 0x00#8, 0x80#8]) := by
  decide +kernel

/-! ## PROC: R175, V6 -/

theorem test_proc_worked_example :
    sinkOf (exec (.proc blockP2) (fresh tableA)) =
      some [[0x00#8, 0x00#8, 0xFF#8, 0x7F#8, 0x00#8, 0x19#8, 0xFF#8, 0x7F#8, 0x00#8, 0xE7#8, 0x00#8, 0x67#8, 0xFF#8, 0x7F#8, 0xFF#8, 0x7F#8]] ∧
    prevOf (exec (.proc blockP2) (fresh tableA)) = some 0xBFF0000000000000#64 ∧
    histOf (exec (.proc blockP2) (fresh tableA)) 24 = some 0x3F60000000000000#64 ∧
    histOf (exec (.proc blockP2) (fresh tableA)) 26 = some 0x3FA0000000000000#64 := by decide +kernel
/-- The six frames of V6 with table `TD`: inexact filter arithmetic. -/
theorem test_proc_inexact :
    sinkOf (exec (.proc [0xE8#8, 0x03#8, 0x00#8, 0x00#8, 0xD0#8, 0x07#8, 0x01#8, 0x00#8, 0x24#8, 0xFA#8, 0x02#8, 0x00#8,
        0xB8#8, 0x0B#8, 0xFD#8, 0xFF#8, 0x3C#8, 0xF6#8, 0x04#8, 0x00#8, 0xF4#8, 0x01#8, 0x05#8, 0x00#8]) (fresh tableD)) =
      some [[0x00#8, 0x00#8, 0xFF#8, 0x7F#8, 0xC4#8, 0x04#8, 0xFF#8, 0x7F#8, 0x9E#8, 0xFD#8, 0x9E#8, 0x7D#8,
        0xE4#8, 0xF2#8, 0xE4#8, 0x72#8, 0x02#8, 0xE1#8, 0x02#8, 0x61#8, 0x07#8, 0xDE#8, 0x07#8, 0x5E#8]] := by decide +kernel

/-! ## Steps: P1, P4, P6, log entry 9 -/

/-- `ROUNDTRIP` of two frames of P1. -/
theorem test_roundtrip :
    replyOf (roundTrip [0x00#8, 0x00#8, 0x00#8, 0xC0#8, 0xFF#8, 0x7F#8, 0xFE#8, 0xFF#8] (fresh tableA)) =
      some (.block [0x00#8, 0x00#8, 0x00#8, 0x40#8, 0xFF#8, 0x7F#8, 0xFE#8, 0x7F#8]) := by decide +kernel
/-- Line 4 of P4: the refusal leaves the state as it was and is reported. -/
theorem test_step_refusal :
    nextOf (step { fresh tableA with fault := true, prev := one, requests := [.op (encode (.proc blockP2))] }) =
      some { fresh tableA with fault := true, prev := one, reply := .refused .streamDead } := by decide +kernel
/-- P6: the loop takes the first block. -/
theorem test_step_loop :
    sinkOf (step { fresh tableA with running := true, source := [block1, []] }) = some [out1] ∧
      (nextOf (step { fresh tableA with running := true, source := [block1, []] })).map (·.source) = some [[]] := by decide +kernel
/-- P6: then the stop wins over the block that is there. -/
theorem test_step_stop :
    nextOf (step { fresh tableA with running := true, stop := true, source := [block1] }) =
      some { fresh tableA with stop := true, seq := .stopped, source := [block1] } := by decide +kernel
theorem test_step_fetched_word : step (State.reset.withFetchWord 8 0b110) = exec (.proc []) State.reset := by rfl
theorem test_step_run_request :
    (nextOf (step { fresh tableA with requests := [.run] })).map (·.running) = some true := by decide +kernel

/-! ## Witnesses: for each statement with hypotheses, a state and operands that meet them -/

/-- A block waits for a sink that is not ready. -/
def busyState : State := { fresh tableA with seq := .busy, offered := some out1, sinkReady := false }

/-- A state whose oldest request is the reserved code. -/
def reservedState : State := { fresh tableA with requests := [.op ⟨0b111#3, .op0⟩] }
theorem test_witness_ReservedCodeIsTurnedAway :
    reservedState.resetReq = false ∧ reservedState.running = false ∧ reservedState.offered = none ∧
      reservedState.requests = .op ⟨0b111#3, .op0⟩ :: [] := ⟨rfl, rfl, rfl, rfl⟩

def ampState : State := { fresh tableA with requests := [.op (encode (.amp [one]))] }
def rstState : State := { busyState with sinkReady := true, running := true, requests := [.op (encode .rst), .run] }
theorem test_witness_StepRunsTheDecodedRequest :
    (rstState.resetReq = false ∧ rstState.requests = .op (encode .rst) :: [.run] ∧ decode (encode .rst) = .ok .rst) ∧
    (ampState.resetReq = false ∧ ampState.running = false ∧ ampState.requests = .op (encode (.amp [one])) :: [] ∧
      decode (encode (.amp [one])) = .ok (.amp [one]) ∧ Instr.amp [one] ≠ .rst) ∧
    ((fresh tableA).offered = none ∧ decodeTableWord 8 4 = some (.amp []) ∧ heldBack (.amp []) (fresh tableA) = false ∧
      (nextOf (exec (.amp []) (((fresh tableA).setResetReq false).setRunning false))).isSome = true) :=
  ⟨⟨rfl, rfl, rfl⟩, ⟨rfl, rfl, rfl, rfl, by decide⟩, rfl, by decide, rfl, by decide +kernel⟩

theorem test_witness_ResetRequestOverridesEverything :
    ({ fresh tableA with resetReq := true, running := true } : State).resetReq = true ∧
      (rstState.resetReq = false ∧ rstState.requests = .op (encode .rst) :: [.run]) := ⟨rfl, rfl, rfl⟩
/-- R169: the sink is ready and a loop runs, and the block of an oldest `RST` is abandoned all the same. -/
theorem test_step_oldest_rst_abandons_the_block :
    nextOf (step rstState) = some { rstState with seq := .idle, offered := none, requests := [.run] } ∧ sinkOf (step rstState) = some [] := by
  decide +kernel

theorem test_witness_WaitingChangesNothing :
    (resetWanted (fresh tableA) = false ∧ (fresh tableA).running = false ∧ (fresh tableA).offered = none ∧ (fresh tableA).requests = []) ∧
    (resetWanted busyState = false ∧ busyState.running = false ∧ busyState.sinkReady = false ∧ busyState.requests = []) ∧
    resetWanted ((fresh tableA).setRunning true) = false ∧ ((fresh tableA).setRunning true).offered = none ∧
    ((fresh tableA).setRunning true).running = true ∧ ((fresh tableA).setRunning true).stop = false ∧
    ((fresh tableA).setRunning true).seq ≠ .busy ∧ ((fresh tableA).setRunning true).source = [] ∧
    (resetWanted (busyState.setRunning true) = false ∧ (busyState.setRunning true).running = true ∧ (busyState.setRunning true).seq = .busy ∧
      (busyState.setRunning true).offered.isSome = true ∧ (busyState.setRunning true).sinkReady = false) := by decide +kernel

/-- `DEC` of a block is requested while another block waits for the sink. -/
def decWhileBusy (ready : Bool) : State := { busyState with sinkReady := ready, requests := [.op (encode (.dec []))] }
/-- R45: it waits, `IN` untouched; once the sink is ready the block is delivered first and then `DEC` runs. -/
theorem test_step_stage_waits_for_the_block :
    nextOf (step (decWhileBusy false)) = some (decWhileBusy false) ∧ sinkOf (step (decWhileBusy true)) = some [out1] ∧
      replyOf (step (decWhileBusy true)) = some (.streams [] []) := by decide +kernel
/-- `StepRunsTheDecodedRequest` where the request is held back. -/
theorem test_witness_StepRunsTheDecodedRequest_held :
    (decWhileBusy false).resetReq = false ∧ (decWhileBusy false).running = false ∧
      (decWhileBusy false).requests = .op (encode (.dec [])) :: [] ∧ decode (encode (.dec [])) = .ok (.dec []) ∧ Instr.dec [] ≠ .rst ∧
      heldBack (.dec []) (takeOffered (decWhileBusy false)) = true ∧ heldBack (.dec []) (takeOffered (decWhileBusy true)) = false := by decide
theorem test_witness_NothingElseActsDuringABlock :
    (decWhileBusy false).seq = .busy ∧ (decWhileBusy false).sinkReady = false ∧ (nextOf (step (decWhileBusy false))).isSome = true ∧
      resetWanted (decWhileBusy false) = false := by decide +kernel

/-- With nothing waiting, and with a block waiting for a ready sink. -/
def runState (b : Option RawBlock) : State :=
  { fresh tableA with seq := if b.isSome then .busy else .idle, offered := b, requests := [.run, .run] }
theorem test_witness_RunRequestStartsTheLoop :
    ∀ b ∈ [none, some out1], (runState b).resetReq = false ∧ (runState b).running = false ∧ (runState b).requests = .run :: [.run] := by decide

theorem test_witness_RstRestoresTheResetValues :
    faultOf (exec .rst { fresh tableA with fault := true }) = some false ∧
      seqOf (exec .rst { fresh tableA with seq := .stopped }) = some .idle := by decide +kernel

theorem test_witness_RstAbandonsTheBlockInProgress : busyState.seq = .busy := rfl

theorem test_witness_DecGivesTheTwoStreams : block1.length % 4 = 0 ∧ 1 < block1.length / 4 := by decide
/-- An accepted `PROC`, of a malformed block and of whole frames. -/
theorem test_witness_DeliveredBlockIsTheInput :
    (nextOf (exec (.proc [1#8, 0#8]) (fresh tableA))).isSome = true ∧ (nextOf (exec (.proc block1) (fresh tableA))).isSome = true := by
  decide +kernel
theorem test_witness_DecChecksTheLengthFirst : ([0#8, 0#8, 0#8] : RawBlock).length % 4 ≠ 0 := by decide

/-- Different samples, and the hypothesis that their values are equal only where the samples are. -/
theorem test_witness_DecodedValueIsExact : dec1 (sext16 0x8000#16) = dec1 (sext16 0x8000#16) ∧ dec1 (sext16 0x8000#16) ≠ dec1 (sext16 0x7FFF#16) := by
  decide +kernel

theorem test_witness_EncodingTruncatesBiasesAndClamps :
    isFinite 0x7FEFFFFFFFFFFFFF#64 = true ∧ isInf posInf = true ∧ isInf negInf = true ∧ isNaN nan = true := by decide

theorem test_witness_EncStoresEveryFrame :
    ([one, posInf] : List F64).length = [posZero, negInf].length ∧ ([one, posInf] : List F64).any isNaN = false ∧
      ([posZero, negInf] : List F64).any isNaN = false ∧ ([one, posInf] : List F64)[1]? = some posInf ∧
      ([posZero, negInf] : List F64)[1]? = some negInf := by decide
theorem test_witness_EncRefusesWhatHasNoMeaning :
    ([one] : List F64).length ≠ ([] : List F64).length ∧ ([nan] : List F64).length = [one].length ∧ ([nan] : List F64).any isNaN = true ∧
      ([one] : List F64).any isNaN = false := by decide

/-- The left samples -1, -2, -32768 from `q = -32768` and -32768 from `q = -32769`: the ends of the three clauses. -/
theorem test_witness_RightChannelFollowsLeft :
    (quantise 0xBF00000000000000#64 = some (.int (-1)) ∧ encL 0xBF00000000000000#64 = some (-1) ∧ encR 0xBF00000000000000#64 = some 32767) ∧
    (quantise 0xBF10000000000000#64 = some (.int (-2)) ∧ encL 0xBF10000000000000#64 = some (-2) ∧ encR 0xBF10000000000000#64 = some 32766) ∧
    (quantise 0xBFF0000000000000#64 = some (.int (-32768)) ∧ encL 0xBFF0000000000000#64 = some (-32768) ∧ encR 0xBFF0000000000000#64 = some 0) ∧
    (quantise 0xBFF0002000000000#64 = some (.int (-32769)) ∧ encL 0xBFF0002000000000#64 = some (-32768) ∧
      encR 0xBFF0002000000000#64 = some (-1)) := by decide +kernel

theorem test_witness_RoundTripOfABlock :
    block1.length % 4 = 0 ∧ 1 < block1.length / 4 ∧ ([0#8, 0#8] : RawBlock).length % 4 ≠ 0 := by decide

theorem test_witness_QdmMultipliesByThePreviousSample : 0 < ([one, one] : List F64).length ∧ 1 < ([one, one] : List F64).length := by decide
theorem test_witness_FirstDemodulatedSampleIsAZero :
    (fresh tableA).prev = posZero ∧ isFinite 0xBFF0000000000000#64 = true ∧ isFinite negInf = false ∧ isFinite nan = false := by decide
theorem test_witness_FirSumsTheWindowInOrder : 0 < ([one, one] : List F64).length ∧ 1 < ([one, one] : List F64).length := by decide
theorem test_witness_AmpMultipliesByTheGain : 0 < ([one] : List F64).length := by decide

/-- The last weight and the first zero after it. -/
theorem test_witness_FirImpulseResponseIsTheTable :
    (fresh tableD).hist = Vector.replicate 27 posZero ∧ coeffWellFormed (fresh tableD).coeff = true ∧ 26 ≤ 27 ∧ 27 ≤ 27 := by decide
theorem test_witness_NanStaysInTheWindowFor27Outputs :
    isNaN (([nan, one] : List F64).getD 0 posZero) = true ∧ 0 < 27 ∧ 1 < 27 ∧
      ((firSeq tableD (Vector.replicate 27 posZero) [nan, one]).1[0]?).isSome = true ∧
      ((firSeq tableD (Vector.replicate 27 posZero) [nan, one]).1[1]?).isSome = true := ⟨by decide, by decide, by decide, rfl, rfl⟩

theorem test_witness_ProcIsRefusedWhenNotAccepting :
    ({ fresh tableA with fault := true } : State).fault = true ∧
    (({ fresh tableA with seq := .stopped } : State).fault = false ∧ ({ fresh tableA with seq := .stopped } : State).seq = .stopped) ∧
    (busyState.fault = false ∧ busyState.seq = .busy) := by decide
theorem test_witness_ProcTakesMalformedBlock : (fresh tableA).accepting = true ∧ (block1.take 6).length % 4 ≠ 0 := by decide
theorem test_witness_MalformedBlockIsTheOnlyException :
    replyOf (exec (.proc (block1.take 6)) (fresh tableA)) = some (.malformedBlock 1 6) ∧
      replyOf (exec (.dec [0#8]) (fresh tableA)) = some (.malformedBlock 1 1) ∧ (block1.take 6).length % 4 ≠ 0 ∧
      (fresh tableA).accepting = true := by decide +kernel

theorem test_witness_ProcIsTheStagesInOrder :
    (fresh tableA).accepting = true ∧ (fresh tableA).sinkReady = true ∧ block1.length % 4 = 0 ∧
      (nextOf (exec (.proc block1) (fresh tableA))).isSome = true := by decide +kernel
/-- With a gain that is not well-formed a NaN reaches `ENC`, as the statement's other case has it. -/
theorem test_witness_ProcIsTheStagesInOrder_nan :
    ({ fresh tableA with gain := nan } : State).accepting = true ∧
      exec (.proc [0#8, 0#8, 0#8, 0#8]) { fresh tableA with gain := nan } = .refused .encodeNaN := by
  refine ⟨rfl, ?_⟩
  rcases execProc_cases [0#8, 0#8, 0#8, 0#8] { fresh tableA with gain := nan } with ⟨r, h, _⟩ | ⟨_, h, _⟩ | ⟨_, _, _, h⟩ | ⟨zs, _, _, _, h, _⟩
  · cases h
  · exact absurd rfl h
  · exact h
  · have hs := (encSamples_isSome_iff rfl).mp (Option.isSome_of_eq_some h)
    simp [amplified, ampSeq, channel0, framesOf, isNaN_fmul, nan, show isNaN 0x7FF8000000000000#64 = true by decide] at hs
theorem test_witness_ProcWaitsForTheSink :
    (fresh tableA).accepting = true ∧ (fresh tableA).sinkReady = true ∧ (fresh tableA).offered = none ∧ block1.length % 4 = 0 ∧
      (nextOf (exec (.proc block1) (fresh tableA))).isSome = true := by decide +kernel
theorem test_witness_ProcLeavesTheCarriedState :
    (fresh tableA).accepting = true ∧ block1.length % 4 = 0 ∧ 1 < block1.length / 4 ∧
      (nextOf (exec (.proc block1) (fresh tableA))).isSome = true := by decide +kernel

/-- P3, version A: two blocks one after the other, state carried. -/
theorem test_witness_StreamIsContinuousAcrossBlocks :
    (fresh tableA).accepting = true ∧ (fresh tableA).sinkReady = true ∧ (∀ b ∈ [block1, blockP2.drop 8], b.length % 4 = 0) ∧
      sinkOf (procAll [block1, blockP2.drop 8] (fresh tableA)) =
        some [out1, [0x00#8, 0xE7#8, 0x00#8, 0x67#8, 0xFF#8, 0x7F#8, 0xFF#8, 0x7F#8]] := by decide +kernel

/-- Two blocks with one channel 0 and different channels 1. -/
theorem test_witness_ChannelOneIsIgnored :
    ([1#8, 2#8, 3#8, 4#8] : RawBlock).length = [1#8, 2#8, 5#8, 6#8].length ∧
      ∀ i : Nat, i % 4 < 2 → ([1#8, 2#8, 3#8, 4#8] : RawBlock)[i]? = ([1#8, 2#8, 5#8, 6#8] : RawBlock)[i]? := by
  refine ⟨rfl, fun i hi => ?_⟩
  rcases i with _ | _ | _ | _ | i <;> simp_all

theorem test_witness_ProcCompletesWithinTheBounds :
    (fresh tableA).accepting = true ∧ block1.length % 4 = 0 ∧ (fresh tableA).parametersBounded = true ∧ (fresh tableA).dataBounded = true := by
  decide +kernel

/-- Twenty-eight frames, silent but for the last two. -/
def block28 : RawBlock := List.replicate 104 0#8 ++ List.replicate 8 0x40#8
/-- From the reset state and from one with another `PREV` and `H` that block completes, and byte 108 exists. -/
theorem test_witness_CarriedStateFadesAfter27Frames :
    (fresh tableA).coeff = ({ fresh tableA with prev := one, hist := Vector.replicate 27 one } : State).coeff ∧
      (fresh tableA).gain = ({ fresh tableA with prev := one, hist := Vector.replicate 27 one } : State).gain ∧
      block28.length % 4 = 0 ∧ 108 < block28.length ∧
      (nextOf (exec (.proc block28) (fresh tableA))).isSome = true ∧
      (nextOf (exec (.proc block28) { fresh tableA with prev := one, hist := Vector.replicate 27 one })).isSome = true := by
  refine ⟨rfl, rfl, by decide, by decide, ?_, ?_⟩ <;> decide +kernel

/-- Two silent frames with noise in channel 1. -/
theorem test_witness_SilenceEncodesToTheBias :
    (fresh tableA).accepting = true ∧ ([0#8, 0#8, 7#8, 9#8] : RawBlock).length % 4 = 0 ∧ silent [0#8, 0#8, 7#8, 9#8] ∧
      (fresh tableA).prev = posZero ∧ (fresh tableA).hist = Vector.replicate 27 posZero ∧ coeffWellFormed (fresh tableA).coeff = true ∧
      gainWellFormed (fresh tableA).gain = true := by
  refine ⟨by decide, by decide, fun i hi => ?_, rfl, rfl, by decide, by decide⟩
  rcases i with _ | _ | _ | _ | i <;> simp_all

def loopState : State := { fresh tableA with running := true, source := [block1, []] }
theorem test_witness_StopWinsBetweenBlocks :
    resetWanted { loopState with stop := true } = false ∧ ({ loopState with stop := true } : State).running = true ∧
      ({ loopState with stop := true } : State).stop = true ∧ ({ loopState with stop := true } : State).seq = .idle ∧
      ({ loopState with stop := true } : State).offered = none := by decide
def stoppingState (ready : Bool) : State := { busyState with running := true, stop := true, sinkReady := ready }
theorem test_witness_StopIsNotSeenInsideABlock :
    ∀ ready : Bool, resetWanted (stoppingState ready) = false ∧ (stoppingState ready).running = true ∧ (stoppingState ready).stop = true ∧
      (stoppingState ready).seq = .busy ∧ (stoppingState ready).offered = some out1 ∧ (stoppingState ready).sinkReady = ready := by decide
theorem test_witness_LoopProcessesTheNextBlock :
    resetWanted loopState = false ∧ loopState.running = true ∧ loopState.stop = false ∧ loopState.seq = .idle ∧ loopState.offered = none ∧
      loopState.source = block1 :: [[]] ∧ (nextOf (exec (.proc block1) loopState)).isSome = true ∧
      faultOf (exec (.proc block1) loopState) = some false := by decide +kernel
/-- The exception that ends the loop. -/
theorem test_witness_LoopProcessesTheNextBlock_malformed :
    faultOf (exec (.proc [0#8]) { loopState with source := [[0#8]] }) = some true ∧
      (nextOf (step { loopState with source := [[0#8]] })).map (·.running) = some false := by decide +kernel

theorem test_witness_StepKeepsTheInvariant : busyState.Inv = true ∧ (nextOf (step busyState)).isSome = true ∧ loopState.Inv = true ∧
    (nextOf (step loopState)).isSome = true := by decide +kernel
theorem test_witness_StepsNeverWriteTheParameters : (nextOf (step loopState)).isSome = true := by decide +kernel
theorem test_witness_SinkOnlyGrows : loopState.Inv = true ∧ sinkOf (step loopState) = some [out1] := by decide +kernel

/-- The two ways out of each of `FAULT = 1` and `SEQ = STOPPED`, the oldest `RST` also past a running loop. -/
def deadState (byLine loop : Bool) : State :=
  { fresh tableA with fault := true, seq := .stopped, resetReq := byLine, running := loop, requests := [.op (encode .rst)] }
theorem test_witness_FaultAndStopLastUntilReset :
    ∀ byLine loop : Bool, (deadState byLine loop).Inv = true ∧ faultOf (step (deadState byLine loop)) = some false ∧
      (deadState byLine loop).fault = true ∧ (deadState byLine loop).seq = .stopped ∧ seqOf (step (deadState byLine loop)) = some .idle := by
  decide +kernel

theorem test_witness_RegistersHaveTheirOwners :
    prevOf (exec (.qdm [one]) (fresh tableA)) = some one ∧ (fresh tableA).prev ≠ one ∧
      histOf (exec (.fir [one]) (fresh tableA)) 26 = some one ∧ (fresh tableA).hist[26]? ≠ some one ∧
      faultOf (exec (.proc [0#8]) (fresh tableA)) ≠ some (fresh tableA).fault := by decide +kernel
/-- One operation for each clause: `RST` leaves both blocks, `DEC` leaves `OUT`, `ENC` leaves `IN`, all leave the sink. -/
theorem test_witness_OperationsLeaveTheRestAlone :
    (nextOf (exec .rst (fresh tableA))).isSome = true ∧ (nextOf (exec (.dec []) (fresh tableA))).isSome = true ∧
      (nextOf (exec (.enc [one] [one]) (fresh tableA))).isSome = true ∧ (∀ b, Instr.rst ≠ .dec b ∧ Instr.rst ≠ .proc b) ∧
      (∀ b l r, Instr.dec [] ≠ .enc l r ∧ Instr.dec [] ≠ .proc b) ∧ ∀ b, Instr.enc [one] [one] ≠ .proc b := by
  refine ⟨by decide +kernel, by decide +kernel, by decide +kernel, ?_, ?_, ?_⟩ <;> simp

/-- A tie: `1 + 2^-53` rounds to the even 1.0; and the first product that is infinite. -/
theorem test_witness_ProductIsCorrectlyRounded :
    isFinite 0x3FF0000000000001#64 = true ∧ isFinite 0x3FF8000000000000#64 = true ∧
      fmul 0x3FF0000000000001#64 0x3FF8000000000000#64 = 0x3FF8000000000002#64 ∧ isFinite one = true ∧
      isInf (fmul 0x7FEFFFFFFFFFFFFF#64 0x4000000000000000#64) = true := by decide +kernel
theorem test_witness_SumIsCorrectlyRounded :
    isFinite one = true ∧ isFinite 0x3CA0000000000000#64 = true ∧ fadd one 0x3CA0000000000000#64 = one ∧
      scaledInt one + scaledInt 0xBFF0000000000000#64 = 0 ∧ scaledInt one + scaledInt one ≠ 0 ∧
      isInf (fadd 0x7FEFFFFFFFFFFFFF#64 0x7FEFFFFFFFFFFFFF#64) = true := by decide +kernel
theorem test_witness_NonFiniteOperandsGiveTheDefaults :
    isNaN nan = true ∧ (isInf posInf = true ∧ isZero posZero = true) ∧ (isInf negInf = true ∧ signBit posInf ≠ signBit negInf) ∧
      signBit negInf = signBit negInf ∧ (isNaN negInf = false ∧ isZero negInf = false) ∧
      (isNaN one = false ∧ isZero one = false ∧ isFinite one = true) := by decide

end Sys2Proof.Tests
end

section
/-! Correct rounding of a packed result (R7): sign, overflow threshold, and nearest-even among the signed values. -/

namespace Sys2Proof.Machine

/-- The factor a sign bit stands for. -/
def signUnit (neg : Bool) : Int := if neg then -1 else 1

theorem scaledInt_eq_signUnit_mul (x : F64) : scaledInt x = signUnit (signBit x) * (magnitude x : Int) := scaledInt_eq x

theorem signUnit_xor (p q : Bool) : signUnit (p != q) = signUnit p * signUnit q := by cases p <;> cases q <;> rfl

/-- Two signs agree or are opposite. -/
theorem signUnit_eq_or_neg (p q : Bool) : signUnit p = signUnit q ∨ signUnit p = -signUnit q := by
  cases p <;> cases q <;> simp [signUnit]

theorem signUnit_decide_neg_mul_natAbs (z : Int) : signUnit (decide (z < 0)) * (z.natAbs : Int) = z := by
  by_cases h : z < 0
  · rw [decide_eq_true h, signUnit, if_pos rfl]
    omega
  · rw [decide_eq_false h, signUnit, if_neg Bool.false_ne_true]
    omega

/-- A common sign does not change a distance. -/
theorem abs_signUnit_mul_sub (neg : Bool) (m n d : Int) : |signUnit neg * m - signUnit neg * n * d| = |m - n * d| := by
  cases neg
  · simp [signUnit]
  · rw [← abs_neg (m - n * d)]
    congr 1
    simp [signUnit]
    ring

theorem roundLow_lt_two_pow (num den : Nat) : roundLow num den < 2 ^ 63 :=
  Nat.lt_of_le_of_lt (roundLow_le_inf num den) (by decide)

@[simp] theorem signBit_roundPack (neg : Bool) (num den : Nat) : signBit (pack neg (roundLow num den)) = neg :=
  signBit_pack neg (roundLow_lt_two_pow num den)

theorem magnitude_roundPack_eq (neg : Bool) (num den : Nat) :
    magnitude (pack neg (roundLow num den)) = magLow (roundLow num den) :=
  magnitude_pack neg (roundLow_lt_two_pow num den)

theorem scaledInt_roundPack (neg : Bool) (num den : Nat) :
    scaledInt (pack neg (roundLow num den)) = signUnit neg * (magLow (roundLow num den) : Int) := by
  rw [scaledInt_eq_signUnit_mul, signBit_roundPack, magnitude_roundPack_eq]

/-- The last fraction bit is the last bit of the pattern. -/
theorem fracField_roundPack_mod_two (neg : Bool) (num den : Nat) :
    fracField (pack neg (roundLow num den)) % 2 = roundLow num den % 2 := by
  rw [fracField_pack neg (roundLow_lt_two_pow num den)]
  omega

theorem isFinite_roundPack_iff (neg : Bool) (num den : Nat) :
    isFinite (pack neg (roundLow num den)) = true ↔ roundLow num den < infLow := by
  rw [isFinite_pack neg (roundLow_le_inf num den), decide_eq_true_iff]

/-- A rounded result is infinite exactly from half a unit above the largest finite value on (R7). -/
theorem isInf_roundPack_iff {num den : Nat} (neg : Bool) (hd : 0 < den) :
    isInf (pack neg (roundLow num den)) = true ↔ (2 ^ 54 - 1) * 2 ^ 2044 * den ≤ num := by
  rw [isInf_pack neg (roundLow_le_inf num den), decide_eq_true_iff, roundLow_eq_inf_iff hd]

/-- The magnitude of a finite value is that of a finite pattern of bits 62:0. -/
theorem exists_magLow_eq_magnitude {x : F64} (hx : isFinite x = true) : ∃ low ≤ infLow, magLow low = magnitude x := by
  obtain ⟨low, h63, hlow⟩ := exists_pack x
  refine ⟨low, ?_, by rw [hlow, magnitude_pack _ h63]⟩
  rw [hlow, isFinite, expField_pack _ h63, bne_iff_ne] at hx
  unfold infLow
  omega

theorem magLow_zero : magLow 0 = 0 := rfl

/-- Seen from a number of the sign `neg`, a finite `x` is no nearer than some magnitude taken with that sign: its own when the signs
agree, else zero; and it is as near only if it is that value. -/
theorem exists_magLow_as_near {x : F64} (hx : isFinite x = true) (neg : Bool) (num : Nat) {den : Nat} (hd : 0 < den) :
    ∃ low ≤ infLow,
      |(num : Int) - magLow low * den| ≤ |signUnit neg * num - scaledInt x * den| ∧
      (|(num : Int) - magLow low * den| = |signUnit neg * num - scaledInt x * den| → scaledInt x = signUnit neg * magLow low) := by
  obtain ⟨low, hle, hmag⟩ := exists_magLow_eq_magnitude hx
  rw [scaledInt_eq_signUnit_mul, ← hmag]
  rcases signUnit_eq_or_neg (signBit x) neg with hs | hs
  · rw [hs, abs_signUnit_mul_sub]
    exact ⟨low, hle, le_rfl, fun _ => rfl⟩
  · have hfar : |signUnit neg * num - signUnit (signBit x) * magLow low * den| = (num : Int) + magLow low * den := by
      rw [hs, show -signUnit neg * (magLow low : Int) = signUnit neg * -magLow low by ring, abs_signUnit_mul_sub,
        show (num : Int) - -magLow low * den = num + magLow low * den by ring]
      exact abs_of_nonneg (by positivity)
    have hzero : |(num : Int) - magLow 0 * den| = num := by simp [magLow_zero]
    have hterm : (0 : Int) ≤ magLow low * den := by positivity
    refine ⟨0, Nat.zero_le _, by rw [hfar, hzero]; omega, fun h => ?_⟩
    rw [hfar, hzero] at h
    have hml : (magLow low : Int) * den = 0 := by omega
    rcases Int.mul_eq_zero.mp hml with h0 | h0
    · simp [h0, magLow_zero]
    · omega

/-- No finite value is nearer to a signed quotient than its rounding, and where another is as near the last fraction bit is 0 (R7). -/
theorem roundPack_nearest {num den : Nat} (neg : Bool) (hd : 0 < den) (hf : isFinite (pack neg (roundLow num den)) = true)
    {x : F64} (hx : isFinite x = true) :
    |signUnit neg * num - scaledInt (pack neg (roundLow num den)) * den| ≤ |signUnit neg * num - scaledInt x * den| ∧
    (scaledInt x ≠ scaledInt (pack neg (roundLow num den)) →
      |signUnit neg * num - scaledInt (pack neg (roundLow num den)) * den| = |signUnit neg * num - scaledInt x * den| →
      fracField (pack neg (roundLow num den)) % 2 = 0) := by
  obtain ⟨low, hle, hnear, hsame⟩ := exists_magLow_as_near hx neg num hd
  obtain ⟨hbest, heven⟩ := roundLow_nearest hd ((isFinite_roundPack_iff neg num den).mp hf) hle
  rw [fracField_roundPack_mod_two, scaledInt_roundPack, abs_signUnit_mul_sub]
  refine ⟨hbest.trans hnear, fun hne htie => heven ?_ (le_antisymm hbest (hnear.trans htie.ge))⟩
  rintro rfl
  exact hne (hsame htie)

/-! ## Sums and products of finite values -/

/-- The exact product of finite values, as the sign and the magnitude that are rounded. -/
theorem scaledInt_mul_scaledInt (a b : F64) :
    scaledInt a * scaledInt b = signUnit (signBit a != signBit b) * ((magnitude a * magnitude b : Nat) : Int) := by
  rw [scaledInt_eq_signUnit_mul, scaledInt_eq_signUnit_mul, signUnit_xor]
  push_cast
  ring

/-- The sign of a rounded sum: that of the exact sum, and for an exact zero negative only if both operands are (R7). -/
def sumSign (a b : F64) (z : Int) : Bool := if z = 0 then signBit a && signBit b else decide (z < 0)

theorem sumSign_of_ne_zero (a b : F64) {z : Int} (h : z ≠ 0) : sumSign a b z = decide (z < 0) := if_neg h

theorem signUnit_sumSign_mul_natAbs (a b : F64) (z : Int) : signUnit (sumSign a b z) * (z.natAbs : Int) = z := by
  by_cases h : z = 0
  · simp [h]
  · rw [sumSign_of_ne_zero a b h, signUnit_decide_neg_mul_natAbs]

/-- An exact zero is rounded as any other sum is, so that both cases of `packSum` are one. -/
theorem packSum_eq_roundPack (a b : F64) (z : Int) : packSum a b z = pack (sumSign a b z) (roundLow z.natAbs 1) := by
  unfold packSum sumSign
  split
  · next h =>
    have h0 : roundLow z.natAbs 1 = 0 := roundLow_exact Nat.one_pos (Nat.zero_le _) (by rw [h, magLow_zero]; rfl)
    rw [h0]
  · rfl

theorem packSum_zero (a b : F64) :
    packSum a b 0 = if signBit a && signBit b then 0x8000000000000000#64 else 0x0000000000000000#64 := by
  rw [packSum, if_pos rfl]
  cases signBit a && signBit b <;> rfl

/-! ## Infinite operands -/

theorem isNaN_eq_false_of_isInf {x : F64} (h : isInf x = true) : isNaN x = false := by
  rw [isInf, Bool.and_eq_true, beq_iff_eq, beq_iff_eq] at h
  simp [isNaN, h]

theorem isZero_eq_false_of_isInf {x : F64} (h : isInf x = true) : isZero x = false := by
  rw [isInf, Bool.and_eq_true, beq_iff_eq, beq_iff_eq] at h
  simp [isZero, h]

theorem isInf_infPack (neg : Bool) : isInf (pack neg infLow) = true := by
  rw [isInf_pack neg le_rfl, decide_eq_true rfl]

theorem signBit_infPack (neg : Bool) : signBit (pack neg infLow) = neg := signBit_pack neg (by decide)

/-- A product that is no NaN, with an infinite factor, is an infinity (R7). -/
theorem fmul_eq_infPack {a b : F64} (hn : isNaN (fmul a b) = false) (hi : (isInf a || isInf b) = true) :
    fmul a b = pack (signBit a != signBit b) infLow := by
  rw [isNaN_fmul] at hn
  rw [fmul, hn, hi, if_neg Bool.false_ne_true, if_pos rfl]

/-- An infinity and a factor that is neither NaN nor zero, in either order (R7). -/
theorem fmul_inf_eq_infPack {a b : F64} (ha : isInf a = true) (hb : isNaN b = false) (hz : isZero b = false) :
    fmul a b = pack (signBit a != signBit b) infLow ∧ fmul b a = pack (signBit a != signBit b) infLow := by
  have hna := isNaN_eq_false_of_isInf ha
  have hza := isZero_eq_false_of_isInf ha
  refine ⟨fmul_eq_infPack (by simp [isNaN_fmul, hna, hb, hz, hza]) (by simp [ha]), ?_⟩
  rw [bne_comm]
  exact fmul_eq_infPack (by simp [isNaN_fmul, hna, hb, hz, hza]) (by simp [ha])

/-- A sum that is no NaN, with an infinite first addend, is that addend (R7). -/
theorem fadd_eq_left {a b : F64} (hn : isNaN (fadd a b) = false) (ha : isInf a = true) : fadd a b = a := by
  rw [isNaN_fadd] at hn
  rw [fadd, hn, if_neg Bool.false_ne_true, if_pos ha]

/-- A finite value plus an infinity is that infinity (R7). -/
theorem fadd_eq_right {a b : F64} (ha : isFinite a = true) (hb : isInf b = true) : fadd a b = b := by
  obtain ⟨hna, hia⟩ := (isFinite_iff a).mp ha
  simp [fadd, hna, hia, isNaN_eq_false_of_isInf hb, hb]

end Sys2Proof.Machine
end

section
/-! The coefficient table of the reset state (R5): finite, and symmetric pattern for pattern. -/

namespace Sys2Proof.Machine

/-- Bit 52 of a pattern is the lowest bit of its exponent field. -/
theorem isFinite_of_not_testBit {x : F64} (h : x.toNat.testBit 52 = false) : isFinite x = true := by
  rw [isFinite, bne_iff_ne]
  intro he
  have h0 : (expField x).testBit 0 = false := by
    rw [expField, Nat.testBit_mod_two_pow, Nat.testBit_div_two_pow, h, Bool.and_false]
  rw [he] at h0
  exact absurd h0 (by decide)

theorem isFinite_asFinite (x : F64) : isFinite (asFinite x) = true := by
  unfold asFinite
  split
  · assumption
  · apply isFinite_of_not_testBit
    rw [BitVec.toNat_and, Nat.testBit_and, show (0xFFEFFFFFFFFFFFFF#64).toNat.testBit 52 = false by decide, Bool.and_false]

theorem all_isFinite_coefficients : coefficients.toList.all isFinite = true := by
  simp [coefficients, Vector.toList_ofFn, isFinite_asFinite]

theorem reverse_coefficients : coefficients.toList.reverse = coefficients.toList := by
  refine List.ext_getElem (by simp) fun j _ hj => ?_
  rw [Vector.length_toList] at hj
  have hmin : min (26 - j) (26 - (26 - j)) = min j (26 - j) := by omega
  simp [coefficients, hmin]

theorem coeffWellFormed_coefficients : coeffWellFormed coefficients = true := by
  rw [coeffWellFormed, all_isFinite_coefficients, reverse_coefficients, Bool.true_and, beq_self_eq_true]

end Sys2Proof.Machine
end

section
/-! What a step does with the oldest request (R11, R67). -/

namespace Sys2Proof.Machine

theorem takeOffered_of_none {s : State} (h : s.offered = none) : takeOffered s = s := by
  rw [takeOffered, h]

/-- With the line clear, a request for another operation asks for no reset. -/
theorem resetWanted_eq_false {s : State} {r : OpRequest} {rest : List Request} {i : Instr} (hline : s.resetReq = false)
    (hq : s.requests = .op r :: rest) (hd : decode r = .ok i) (hi : i ≠ .rst) : resetWanted s = false := by
  rw [Bool.eq_false_iff, Ne, resetWanted_iff, hline, hq]
  rintro (h | ⟨rest', h⟩)
  · cases h
  · cases h
    cases hd
    exact hi rfl

/-- An oldest request that is no reset: held back, or run and answered (R11, R192). -/
theorem step_of_request {s : State} {r : OpRequest} {rest : List Request} {i : Instr} (hline : s.resetReq = false)
    (hrun : s.running = false) (hq : s.requests = .op r :: rest) (hd : decode r = .ok i) (hi : i ≠ .rst) :
    step s = if heldBack i (takeOffered s) then .next (takeOffered s)
      else answer ((takeOffered s).setRequests rest) (exec i ((takeOffered s).setRequests rest)) := by
  obtain ⟨hreqs, hrunning⟩ := takeOffered_requests s
  rw [step, driverStep, resetWanted_eq_false hline hq hd hi, hrunning, hrun, if_neg Bool.false_ne_true,
    if_neg Bool.false_ne_true, requestStep, hreqs, hq]
  simp only [hd]

/-- An oldest `RST` is run at once, whatever is in progress (R169, R193 (c)). -/
theorem step_of_rst {s : State} {r : OpRequest} {rest : List Request} (hline : s.resetReq = false)
    (hq : s.requests = .op r :: rest) (hd : decode r = .ok .rst) : step s = exec .rst (s.setRequests rest) := by
  have hw : resetWanted s = true := (resetWanted_iff s).mpr (.inr ⟨rest, by rw [hq, decode_rst hd]⟩)
  rw [step, driverStep, hw, if_pos rfl, takeReset, hline, if_neg Bool.false_ne_true, hq, List.tail_cons]

theorem decode_tableRequest {n w : Nat} {i : Instr} (h : decodeTableWord n w = some i) : decode (tableRequest n w) = .ok i := by
  unfold decodeTableWord at h
  split at h
  · next j hj => rw [hj, Option.some.inj h]
  · cases h

/-- Taking a placed request off again leaves the state it was placed in. -/
theorem setRequests_placeRequest (s : State) (r : Request) :
    (placeRequest s r).setRequests s.requests = (s.setResetReq false).setRunning false := rfl

/-- A placed request that is not held back is run by the next step. -/
theorem step_placeRequest {s t : State} {r : OpRequest} {i : Instr} (hoff : s.offered = none) (hd : decode r = .ok i)
    (hb : heldBack i s = false) (he : exec i ((s.setResetReq false).setRunning false) = .next t) :
    step (placeRequest s (.op r)) = .next t := by
  by_cases hi : i = .rst
  · subst hi
    rw [step_of_rst (rest := s.requests) rfl rfl hd, setRequests_placeRequest, he]
  · have hoff' : takeOffered (placeRequest s (.op r)) = placeRequest s (.op r) := takeOffered_of_none hoff
    have hb' : heldBack i (placeRequest s (.op r)) = false := hb
    rw [step_of_request (rest := s.requests) rfl rfl rfl hd hi, hoff', hb', if_neg Bool.false_ne_true,
      setRequests_placeRequest, he]
    rfl

end Sys2Proof.Machine
end

section
/-! The statements on the scope and its arithmetic. -/

open Sys2Proof Sys2Proof.Machine

/-- Settles O56: a finite product is the packed rounding of the exact one, and such a rounding is nearest-even. -/
theorem productIsCorrectlyRounded : Obligations.ProductIsCorrectlyRounded := by
  intro a b ha hb
  have hd : 0 < 2 ^ 1074 := Nat.two_pow_pos 1074
  rw [fmul_finite ha hb, scaledInt_mul_scaledInt]
  refine ⟨isNaN_roundPack _ _ _, signBit_roundPack _ _ _, isInf_roundPack_iff _ hd, fun hf x hx => ?_⟩
  have h := roundPack_nearest _ hd hf hx
  rw [Nat.cast_pow] at h
  exact h

/-- Settles O57: a finite sum is the packed rounding of the exact one with its own sign; only an exact zero takes its sign from the
operands. -/
theorem sumIsCorrectlyRounded : Obligations.SumIsCorrectlyRounded := by
  intro a b ha hb
  rw [fadd_finite ha hb]
  generalize scaledInt a + scaledInt b = z
  refine ⟨isNaN_packSum a b z, fun h0 => by rw [h0, packSum_zero], ?_⟩
  rw [packSum_eq_roundPack]
  refine ⟨?_, fun hne => ?_, fun hf x hx => ?_⟩
  · rw [isInf_roundPack_iff _ Nat.one_pos, Nat.mul_one]
  · rw [signBit_roundPack, sumSign_of_ne_zero a b hne]
  · have h := roundPack_nearest _ Nat.one_pos hf hx
    rw [signUnit_sumSign_mul_natAbs, Nat.cast_one, Int.mul_one, Int.mul_one] at h
    exact h

/-- Settles O58: when a product or a sum is NaN is known, and what is not NaN and has an infinite operand is an infinity. -/
theorem nonFiniteOperandsGiveTheDefaults : Obligations.NonFiniteOperandsGiveTheDefaults := by
  intro a b
  refine ⟨fun h => ?_, fun ha hb => ?_, fun ha hb hs => ?_, fun ha hb hs => ?_, fun ha hb hz => ?_, fun ha hb => ?_⟩
  · rcases h with h | h <;> simp [isNaN_fmul, isNaN_fadd, h]
  · simp [isNaN_fmul, ha, hb]
  · simp [isNaN_fadd, ha, hb, hs]
  · exact fadd_eq_left (by simp [isNaN_fadd, isNaN_eq_false_of_isInf ha, isNaN_eq_false_of_isInf hb, hs]) ha
  · obtain ⟨hl, hr⟩ := fmul_inf_eq_infPack ha hb hz
    rw [hl, hr]
    exact ⟨isInf_infPack _, signBit_infPack _, isInf_infPack _, signBit_infPack _⟩
  · obtain ⟨hnb, hib⟩ := (isFinite_iff b).mp hb
    exact ⟨fadd_eq_left (by simp [isNaN_fadd, isNaN_eq_false_of_isInf ha, hnb, hib]) ha, fadd_eq_right hb ha⟩

/-- Settles O5: the step's three ways to the oldest request, each by its own law. -/
theorem stepRunsTheDecodedRequest : Obligations.StepRunsTheDecodedRequest := by
  refine ⟨fun s r rest i hline hrun hq hd hi => ?_, fun s r rest hline hq hd => step_of_rst hline hq hd,
    fun s n w i t hoff hd hb he => step_placeRequest hoff (decode_tableRequest hd) hb he⟩
  rw [step_of_request hline hrun hq hd hi]
  cases exec i ((takeOffered s).setRequests rest) <;> rfl

/-- Settles O12: the reset state holds the default gain and the free table, which is finite and symmetric by construction. -/
theorem resetParametersWellFormed : Obligations.ResetParametersWellFormed :=
  ⟨rfl, by decide, coeffWellFormed_coefficients⟩

end

section
/-! Predicates that a step keeps: the moves a step is made of, and the induction over them, said once (R11, R170, R193). -/

namespace Sys2Proof.Machine

/-- Every move a step is made of keeps `P`, `RST` being among them only where `reset` holds: taking requests and source blocks off,
setting the loop flag, replying and clearing the reset line; handing the waiting block to a ready sink; honouring the stop request;
and running an operation. -/
structure MovesKeep (reset : Prop) (P : State → Prop) : Prop where
  reply : ∀ s v, P s → P (s.setReply v)
  resetReq : ∀ s v, P s → P (s.setResetReq v)
  running : ∀ s v, P s → P (s.setRunning v)
  source : ∀ s v, P s → P (s.setSource v)
  requests : ∀ s v, P s → P (s.setRequests v)
  take : ∀ s, P s → P (takeOffered s)
  stop : ∀ s, s.seq ≠ .busy → P s → P (s.setSeq .stopped)
  exec : ∀ {i : Instr} {s t : State}, (i = .rst → reset) → exec i s = .next t → P s → P t

/-- What every move keeps, a step keeps; `RST` is run only when a reset is requested. -/
theorem MovesKeep.step {P : State → Prop} {s t : State} (h : MovesKeep (resetWanted s = true) P) (hs : step s = .next t)
    (hP : P s) : P t := by
  have htake := h.take s hP
  rcases step_cases hs with ⟨hw, he⟩ | ⟨hw, ⟨-, hloop⟩ | ⟨-, hreq⟩⟩
  · refine h.exec (fun _ => hw) he ?_
    unfold takeReset
    split
    · exact h.resetReq _ _ hP
    · exact h.requests _ _ hP
  · rcases hloop with rfl | ⟨hb, rfl⟩ | ⟨b, rest, t', he, rfl⟩ | ⟨r, rfl⟩
    · exact htake
    · exact h.running _ _ (h.stop _ hb htake)
    · exact h.running _ _ (h.source _ _ (h.exec Instr.noConfusion he htake))
    · exact h.running _ _ (h.reply _ _ htake)
  · rcases hreq with rfl | ⟨q, rest, hq, rfl | ⟨r, rfl⟩ | ⟨i, r, rfl, hd, -, he⟩⟩
    · exact htake
    · exact h.reply _ _ (h.running _ _ (h.requests _ _ htake))
    · exact h.reply _ _ (h.requests _ _ htake)
    · refine h.exec ?_ he (h.requests _ _ htake)
      rintro rfl
      exact (resetWanted_iff s).mpr (.inr ⟨rest, by rw [hq, decode_rst hd]⟩)

/-- Everything the hand-over can do: nothing, or the delivery of the block that waits. -/
theorem takeOffered_cases (s : State) :
    takeOffered s = s ∨ ∃ bs, s.offered = some bs ∧ takeOffered s = deliverBlock s bs := by
  unfold takeOffered
  split
  · next bs hbs =>
    split
    · exact .inr ⟨bs, hbs, rfl⟩
    · exact .inl rfl
  · exact .inl rfl

/-- `RST` in terms of the fields it writes (R168). -/
theorem exec_rst_eq (s : State) :
    exec .rst s = .next { s with
      prev := posZero, hist := Vector.replicate 27 posZero, fault := false, seq := .idle, offered := none, reply := .none } := rfl

end Sys2Proof.Machine
end

section
/-! The invariant of the state, move by move (R26, R40, R45, R163). -/

namespace Sys2Proof.Machine

theorem State.seqMatchesOffer_iff (s : State) : s.seqMatchesOffer = true ↔ (s.seq = .busy ↔ s.offered.isSome = true) := by
  rw [State.seqMatchesOffer, beq_iff_eq, Bool.eq_iff_iff, beq_iff_eq]

theorem State.inv_iff (s : State) : s.Inv = true ↔
    (s.inp.wf = true ∧ s.out.wf = true) ∧ (s.seq = .busy ↔ s.offered.isSome = true) ∧
      (∀ bs, s.offered = some bs → wholeFrames bs = true) ∧ ∀ bs ∈ s.sink, wholeFrames bs = true := by
  simp only [State.Inv, State.memoryWf, State.blocksWhole, State.seqMatchesOffer_iff, Bool.and_eq_true, List.all_eq_true,
    Option.mem_toList, and_assoc]

/-- While `SEQ` is not BUSY no block waits. -/
theorem State.Inv.offered_eq_none {s : State} (h : s.Inv = true) (hs : s.seq ≠ .busy) : s.offered = none := by
  obtain ⟨-, hseq, -⟩ := s.inv_iff.mp h
  simpa using mt hseq.mpr hs

theorem inv_setInp {s : State} {b : Block} (hb : b.wf = true) (h : s.Inv = true) : (s.setInp b).Inv = true := by
  obtain ⟨⟨-, hout⟩, hrest⟩ := s.inv_iff.mp h
  exact (State.inv_iff _).mpr ⟨⟨hb, hout⟩, hrest⟩

theorem inv_setOut {s : State} {b : Block} (hb : b.wf = true) (h : s.Inv = true) : (s.setOut b).Inv = true := by
  obtain ⟨⟨hinp, -⟩, hrest⟩ := s.inv_iff.mp h
  exact (State.inv_iff _).mpr ⟨⟨hinp, hb⟩, hrest⟩

/-- With no block waiting, `SEQ` may take any value but BUSY. -/
theorem inv_of_not_busy {s : State} (hm : s.memoryWf = true) (hseq : s.seq ≠ .busy) (hoff : s.offered = none)
    (hsink : ∀ bs ∈ s.sink, wholeFrames bs = true) : s.Inv = true := by
  rw [State.memoryWf, Bool.and_eq_true] at hm
  refine s.inv_iff.mpr ⟨hm, ?_, ?_, hsink⟩ <;> simp [hseq, hoff]

/-- Delivering a block of whole frames meets the invariant whatever `SEQ` was and whatever was offered. -/
theorem inv_deliverBlock {s : State} {bs : RawBlock} (hm : s.memoryWf = true) (hbs : wholeFrames bs = true)
    (hsink : ∀ b ∈ s.sink, wholeFrames b = true) : (deliverBlock s bs).Inv = true := by
  refine inv_of_not_busy hm SeqPos.noConfusion rfl fun b hb => ?_
  rcases List.mem_append.mp hb with hb | hb
  · exact hsink b hb
  · rw [List.mem_singleton.mp hb, hbs]

theorem inv_offerBlock {s : State} {bs : RawBlock} (hm : s.memoryWf = true) (hseq : s.seq = .busy) (hbs : wholeFrames bs = true)
    (hsink : ∀ b ∈ s.sink, wholeFrames b = true) : (offerBlock s bs).Inv = true := by
  unfold offerBlock
  split
  · exact inv_deliverBlock hm hbs hsink
  · rw [State.memoryWf, Bool.and_eq_true] at hm
    exact (State.inv_iff _).mpr ⟨hm, by simp [hseq], by simp [hbs], hsink⟩

theorem inv_takeOffered {s : State} (h : s.Inv = true) : (takeOffered s).Inv = true := by
  obtain ⟨⟨hinp, hout⟩, -, hoff, hsink⟩ := s.inv_iff.mp h
  rcases takeOffered_cases s with he | ⟨bs, hbs, he⟩
  · rw [he, h]
  · rw [he]
    exact inv_deliverBlock (by rw [State.memoryWf, hinp, hout]; rfl) (hoff bs hbs) hsink

theorem inv_setSeq_stopped {s : State} (hs : s.seq ≠ .busy) (h : s.Inv = true) : (s.setSeq .stopped).Inv = true := by
  obtain ⟨⟨hinp, hout⟩, -, -, hsink⟩ := s.inv_iff.mp h
  have hoff : s.offered = none := State.Inv.offered_eq_none h hs
  exact inv_of_not_busy (by simp [State.memoryWf, hinp, hout]) SeqPos.noConfusion hoff hsink

/-- A completed `PROC` keeps the invariant: the block it loads and the one it stores are canonical, and its output is as long as its
input (R163). -/
theorem inv_execProc {bs : RawBlock} {s t : State} (he : execProc bs s = .next t) (h : s.Inv = true) : t.Inv = true := by
  obtain ⟨⟨-, hout⟩, -, -, hsink⟩ := s.inv_iff.mp h
  obtain ⟨-, hidle, ⟨-, rfl⟩ | ⟨out, hw, hlen, hwhole, rfl⟩⟩ := execProc_next_cases he
  · have hm : (faultStream (acceptBlock s bs) bs.length).memoryWf = true :=
      Bool.and_eq_true_iff.mpr ⟨Block.wf_ofBytes bs, hout⟩
    have hoff : s.offered = none := State.Inv.offered_eq_none h (by simp [hidle])
    exact inv_of_not_busy hm SeqPos.noConfusion hoff hsink
  · have hm : (((afterStages (acceptBlock s bs) (channel0 bs)).setOut out).setReply .none).memoryWf = true :=
      Bool.and_eq_true_iff.mpr ⟨Block.wf_ofBytes bs, hw⟩
    exact inv_offerBlock hm rfl (by simp [wholeFrames, hlen, hwhole]) hsink

/-- Every operation keeps the invariant. -/
theorem inv_exec {i : Instr} {s t : State} (he : exec i s = .next t) (h : s.Inv = true) : t.Inv = true := by
  rcases exec_cases he with ⟨-, ⟨⟩⟩ | ⟨b, -, rfl⟩ | ⟨x, -, rfl⟩ | ⟨x, -, rfl⟩ | ⟨x, -, rfl⟩ | ⟨l, r, out, -, hw, rfl⟩ | ⟨b, -, he⟩
  · obtain ⟨⟨hinp, hout⟩, -, -, hsink⟩ := s.inv_iff.mp h
    exact inv_of_not_busy (by simp [State.memoryWf, hinp, hout]) SeqPos.noConfusion rfl hsink
  · exact inv_setInp (s := s) (Block.wf_ofBytes b) h
  · exact h
  · exact h
  · exact h
  · exact inv_setOut (s := s) hw h
  · exact inv_execProc he h

theorem inv_movesKeep (reset : Prop) : MovesKeep reset fun s => s.Inv = true where
  reply _ _ h := h
  resetReq _ _ h := h
  running _ _ h := h
  source _ _ h := h
  requests _ _ h := h
  take _ h := inv_takeOffered h
  stop _ hs h := inv_setSeq_stopped hs h
  exec _ he h := inv_exec he h

end Sys2Proof.Machine
end

section
/-! What an operation leaves alone, and what FAULT and STOPPED withstand (R20, R25, R27, R168). -/

namespace Sys2Proof.Machine

/-- No operation touches the parameters or the host's inputs (R23, R24, R29). -/
theorem exec_frame {i : Instr} {s t : State} (he : exec i s = .next t) :
    t.coeff = s.coeff ∧ t.gain = s.gain ∧ t.sinkReady = s.sinkReady ∧ t.stop = s.stop ∧ t.resetReq = s.resetReq ∧
      t.running = s.running ∧ t.source = s.source ∧ t.requests = s.requests := by
  rcases exec_cases he with ⟨-, ⟨⟩⟩ | ⟨b, -, rfl⟩ | ⟨x, -, rfl⟩ | ⟨x, -, rfl⟩ | ⟨x, -, rfl⟩ | ⟨l, r, out, -, -, rfl⟩ | ⟨b, -, he⟩
  case inr.inr.inr.inr.inr.inr =>
    obtain ⟨-, -, hcoeff, hgain, hready, hstop, hreset, hrun, hsource, hrequests, -⟩ := execProc_frame he
    exact ⟨hcoeff, hgain, hready, hstop, hreset, hrun, hsource, hrequests⟩
  all_goals simp

/-- Which operations write which register (R20, R25). -/
theorem exec_writes_register {i : Instr} {s t : State} (he : exec i s = .next t) :
    (t.prev ≠ s.prev → i = .rst ∨ (∃ x, i = .qdm x) ∨ ∃ b, i = .proc b) ∧
      (t.hist ≠ s.hist → i = .rst ∨ (∃ x, i = .fir x) ∨ ∃ b, i = .proc b) ∧
      (t.fault ≠ s.fault ∨ t.seq ≠ s.seq → i = .rst ∨ ∃ b, i = .proc b) := by
  rcases exec_cases he with ⟨rfl, -⟩ | ⟨b, rfl, rfl⟩ | ⟨x, rfl, rfl⟩ | ⟨x, rfl, rfl⟩ | ⟨x, rfl, rfl⟩ | ⟨l, r, out, rfl, -, rfl⟩ |
    ⟨b, rfl, -⟩ <;> simp

/-- Which operations write `IN`, `OUT` and the sink (R40). -/
theorem exec_writes_block {i : Instr} {s t : State} (he : exec i s = .next t) :
    ((∀ b, i ≠ .dec b ∧ i ≠ .proc b) → t.inp = s.inp) ∧ ((∀ b l r, i ≠ .enc l r ∧ i ≠ .proc b) → t.out = s.out) ∧
      ((∀ b, i ≠ .proc b) → t.sink = s.sink) := by
  rcases exec_cases he with ⟨rfl, ⟨⟩⟩ | ⟨b, rfl, rfl⟩ | ⟨x, rfl, rfl⟩ | ⟨x, rfl, rfl⟩ | ⟨x, rfl, rfl⟩ | ⟨l, r, out, rfl, -, rfl⟩ |
    ⟨b, rfl, -⟩ <;> simp

/-- Where `PROC` is not accepted, only `RST` changes `FAULT` or `SEQ` (R27, R168). -/
theorem exec_keeps_status {i : Instr} {s t : State} (hi : i ≠ .rst) (hs : s.fault = true ∨ s.seq ≠ .idle) (he : exec i s = .next t) :
    t.fault = s.fault ∧ t.seq = s.seq := by
  obtain ⟨-, -, howner⟩ := exec_writes_register he
  by_contra hne
  rcases howner (not_and_or.mp hne) with h | ⟨b, rfl⟩
  · exact hi h
  · obtain ⟨hfault, hidle, -⟩ := execProc_frame he
    simp [hfault, hidle] at hs

/-- `s` meets the invariant, and is dead and stopped if `s₀` was. -/
def State.deadIf (s₀ s : State) : Prop :=
  s.Inv = true ∧ (s₀.fault = true → s.fault = true) ∧ (s₀.seq = .stopped → s.seq = .stopped)

/-- Without a reset every move leaves a dead stream dead and a stopped run stopped: no block waits in a stopped run, and `PROC` is
refused in both. -/
theorem deadIf_movesKeep {reset : Prop} (hreset : ¬reset) (s₀ : State) : MovesKeep reset (State.deadIf s₀) where
  reply _ _ h := h
  resetReq _ _ h := h
  running _ _ h := h
  source _ _ h := h
  requests _ _ h := h
  take s := by
    rintro ⟨hinv, hfault, hstopped⟩
    refine ⟨inv_takeOffered hinv, fun h => by rw [(takeOffered_frame s).2.2, hfault h], fun h => ?_⟩
    have hoff : s.offered = none := State.Inv.offered_eq_none hinv (by simp [hstopped h])
    rw [takeOffered_of_none hoff, hstopped h]
  stop s hs := by
    rintro ⟨hinv, hfault, -⟩
    exact ⟨inv_setSeq_stopped hs hinv, hfault, fun _ => rfl⟩
  exec {i s t} hi he := by
    rintro ⟨hinv, hfault, hstopped⟩
    have hne : i ≠ .rst := mt hi hreset
    refine ⟨inv_exec he hinv, fun h => ?_, fun h => ?_⟩
    · rw [(exec_keeps_status hne (.inl (hfault h)) he).1, hfault h]
    · rw [(exec_keeps_status hne (.inr (by simp [hstopped h])) he).2, hstopped h]

/-- `s` holds the coefficient table and the gain of `s₀`. -/
def State.sameParameters (s₀ s : State) : Prop := s.coeff = s₀.coeff ∧ s.gain = s₀.gain

theorem sameParameters_movesKeep (reset : Prop) (s₀ : State) : MovesKeep reset (State.sameParameters s₀) where
  reply _ _ h := h
  resetReq _ _ h := h
  running _ _ h := h
  source _ _ h := h
  requests _ _ h := h
  take s h := by
    obtain ⟨hcoeff, hgain, -⟩ := takeOffered_frame s
    exact ⟨hcoeff.trans h.1, hgain.trans h.2⟩
  stop _ _ h := h
  exec _ he h := by
    obtain ⟨hcoeff, hgain, -⟩ := exec_frame he
    exact ⟨hcoeff.trans h.1, hgain.trans h.2⟩

end Sys2Proof.Machine
end

section
/-! A finished block and a sink that is not ready (R26, R160, R172). -/

namespace Sys2Proof.Machine

theorem finishBlock_waits {s : State} (out : Block) (h : s.sinkReady = false) :
    finishBlock s out = ((s.setOut out).setReply .none).setOffered (some out.bytes) := offerBlock_waits _ h

theorem finishBlock_ready {s : State} (out : Block) (h : s.sinkReady = true) :
    finishBlock s out = deliverBlock ((s.setOut out).setReply .none) out.bytes := offerBlock_ready _ h

/-- A block that waited is handed over, once the sink is ready, as if the sink had been ready from the start. -/
theorem takeOffered_finishBlock (s : State) (out : Block) :
    takeOffered { finishBlock { s with sinkReady := false } out with sinkReady := true } =
      finishBlock { s with sinkReady := true } out := by
  rw [finishBlock_waits out rfl, finishBlock_ready out rfl]
  rfl

/-- What an accepted `PROC` does to the state does not depend on whether the sink is ready, up to the hand-over. -/
theorem proc_next_sinkReady {s t : State} {bs : RawBlock} (ready : Bool) (ha : s.accepting = true) (hl : bs.length % 4 = 0)
    (he : exec (.proc bs) s = .next t) :
    ∃ out, t = finishBlock (afterStages (acceptBlock s bs) (channel0 bs)) out ∧
      exec (.proc bs) { s with sinkReady := ready } =
        .next (finishBlock { afterStages (acceptBlock s bs) (channel0 bs) with sinkReady := ready } out) := by
  obtain ⟨zs, out, hz, ho, -, -, -, -, rfl⟩ := proc_of_next ha hl he
  obtain ⟨out', ho', -, -, -, he'⟩ := proc_next_of_encSamples (s := { s with sinkReady := ready }) ha hl hz
  cases ho.symm.trans ho'
  exact ⟨out, rfl, he'⟩

end Sys2Proof.Machine
end

section
/-! The statements on the state. -/

open Sys2Proof Sys2Proof.Machine

/-- Settles O49: every move of a step keeps the invariant. -/
theorem stepKeepsTheInvariant : Obligations.StepKeepsTheInvariant :=
  fun _ _ hinv hstep => (inv_movesKeep _).step hstep hinv

/-- Settles O37: with the sink not ready the same block is left waiting, and the hand-over makes up for it. -/
theorem procWaitsForTheSink : Obligations.ProcWaitsForTheSink := by
  intro s t bs ha hready _ hl he
  obtain ⟨out, rfl, hwait⟩ := proc_next_sinkReady false ha hl he
  refine ⟨_, hwait, ?_⟩
  obtain ⟨-, -, hout, -⟩ := finishBlock_fields (afterStages (acceptBlock s bs) (channel0 bs)) out
  have hs : { afterStages (acceptBlock s bs) (channel0 bs) with sinkReady := true } = afterStages (acceptBlock s bs) (channel0 bs) := by
    rw [← show (afterStages (acceptBlock s bs) (channel0 bs)).sinkReady = true from hready]
  rw [takeOffered_finishBlock, hs, hout, finishBlock_waits out rfl]
  exact ⟨rfl, rfl, rfl, rfl⟩

/-- Settles O51: every move of a step keeps the parameters. -/
theorem stepsNeverWriteTheParameters : Obligations.StepsNeverWriteTheParameters :=
  fun s _ hstep => (sameParameters_movesKeep _ s).step hstep ⟨rfl, rfl⟩

/-- Settles O52: without a reset request a dead stream stays dead and a stopped run stopped. -/
theorem faultAndStopLastUntilReset : Obligations.FaultAndStopLastUntilReset := by
  intro s t hinv hstep hleft
  rw [← resetWanted_iff]
  by_contra hreset
  obtain ⟨-, hfault, hstopped⟩ := (deadIf_movesKeep hreset s).step hstep ⟨hinv, id, id⟩
  rcases hleft with ⟨hs, ht⟩ | ⟨hs, ht⟩
  · rw [hfault hs] at ht
    cases ht
  · exact ht (hstopped hs)

/-- Settles O54: the registers each operation writes. -/
theorem registersHaveTheirOwners : Obligations.RegistersHaveTheirOwners := fun _ _ _ he => exec_writes_register he

/-- Settles O55: the blocks each operation writes, and what none does. -/
theorem operationsLeaveTheRestAlone : Obligations.OperationsLeaveTheRestAlone := by
  intro i s t he
  obtain ⟨hinp, hout, hsink⟩ := exec_writes_block he
  exact ⟨fun h a => by rw [hinp h], fun h a => by rw [hout h], hsink, exec_frame he⟩

/-- Settles O11: the reset state and the state `RST` leaves, field by field. -/
theorem resetStateValues : Obligations.ResetStateValues := by
  have hhist : ∀ j : Fin 27, (Vector.replicate 27 posZero)[j] = 0x0000000000000000#64 := fun j => Vector.getElem_replicate j.isLt
  exact ⟨⟨rfl, hhist, rfl, rfl⟩, fun s => ⟨_, exec_rst_eq s, rfl, hhist, rfl, rfl, rfl, rfl⟩⟩

/-- Settles O48: at reset both address spaces are empty, `SEQ` is IDLE and no block is offered or delivered. -/
theorem resetMeetsTheInvariant : Obligations.ResetMeetsTheInvariant := by
  have hsink : ∀ bs ∈ State.reset.sink, wholeFrames bs = true := fun _ h => nomatch h
  exact inv_of_not_busy rfl SeqPos.noConfusion rfl hsink

end

section
/-! What reaches the sink, and what a step can do while a block waits for it (R26, R45, R47, R172). -/

namespace Sys2Proof.Machine

theorem sink_isPrefix_deliverBlock (s : State) (bs : RawBlock) : s.sink <+: (deliverBlock s bs).sink := ⟨[bs], rfl⟩

theorem sink_isPrefix_offerBlock (s : State) (bs : RawBlock) : s.sink <+: (offerBlock s bs).sink := by
  unfold offerBlock
  split
  · exact sink_isPrefix_deliverBlock s bs
  · rfl

theorem sink_isPrefix_takeOffered (s : State) : s.sink <+: (takeOffered s).sink := by
  rcases takeOffered_cases s with he | ⟨bs, -, he⟩
  · rw [he]
  · rw [he]
    exact sink_isPrefix_deliverBlock s bs

/-- Only `PROC` reaches the sink, and it offers its block after those the sink has (R160, R163). -/
theorem sink_isPrefix_exec {i : Instr} {s t : State} (he : exec i s = .next t) : s.sink <+: t.sink := by
  by_cases hproc : ∃ b, i = .proc b
  · obtain ⟨b, rfl⟩ := hproc
    obtain ⟨-, -, ⟨-, rfl⟩ | ⟨out, -, -, -, rfl⟩⟩ := execProc_next_cases he
    · rfl
    · exact sink_isPrefix_offerBlock (((afterStages (acceptBlock s b) (channel0 b)).setOut out).setReply .none) out.bytes
  · obtain ⟨-, -, hsink⟩ := exec_writes_block he
    rw [hsink fun b hb => hproc ⟨b, hb⟩]

theorem sink_isPrefix_movesKeep (reset : Prop) (taken : List RawBlock) : MovesKeep reset fun s => taken <+: s.sink where
  reply _ _ h := h
  resetReq _ _ h := h
  running _ _ h := h
  source _ _ h := h
  requests _ _ h := h
  take s h := h.trans (sink_isPrefix_takeOffered s)
  stop _ _ h := h
  exec _ he h := h.trans (sink_isPrefix_exec he)

/-- With no block waiting, or a sink that is not ready, nothing is handed over. -/
theorem takeOffered_of_waits {s : State} (h : s.offered = none ∨ s.sinkReady = false) : takeOffered s = s := by
  rcases h with h | h
  · exact takeOffered_of_none h
  · unfold takeOffered
    split
    · rw [h, if_neg Bool.false_ne_true]
    · rfl

/-- While `SEQ` is BUSY no operation completes but `RST`, unless it is held back (R161, R169; log entry 21). -/
theorem exec_busy_eq_rst {i : Instr} {s t : State} (hbusy : s.seq = .busy) (hheld : heldBack i s = false)
    (he : exec i s = .next t) : i = .rst := by
  rcases not_heldBack hbusy hheld with hi | ⟨b, rfl⟩
  · exact hi
  · obtain ⟨-, hidle, -⟩ := execProc_next_cases he
    cases hbusy.symm.trans hidle

/-- Everything a step can do while a block waits for a sink that does not take it: a reset, or a change of the requests, the loop flag
and the reply alone. -/
theorem step_busy_cases {s t : State} (hbusy : s.seq = .busy) (hwait : s.offered = none ∨ s.sinkReady = false)
    (hs : step s = .next t) :
    (resetWanted s = true ∧ exec .rst (takeReset s) = .next t) ∨
      t = { s with requests := t.requests, running := t.running, reply := t.reply } := by
  have hcases := step_cases hs
  rw [takeOffered_of_waits hwait] at hcases
  rcases hcases with hreset | ⟨hw, ⟨-, hloop⟩ | ⟨-, hreq⟩⟩
  · exact .inl hreset
  · right
    rcases hloop with rfl | ⟨hne, -⟩ | ⟨b, rest, t', he, -⟩ | ⟨r, rfl⟩
    · rfl
    · exact absurd hbusy hne
    · cases exec_busy_eq_rst hbusy (heldBack_proc b s) he
    · rfl
  · right
    rcases hreq with rfl | ⟨q, rest, hq, rfl | ⟨r, rfl⟩ | ⟨i, r, rfl, hd, hheld, he⟩⟩
    · rfl
    · rfl
    · rfl
    · cases exec_busy_eq_rst (s := s.setRequests rest) hbusy hheld he
      have hw' : resetWanted s = true := (resetWanted_iff s).mpr (.inr ⟨rest, by rw [hq, decode_rst hd]⟩)
      cases hw.symm.trans hw'

/-- `RST` leaves the host's two buffers as they are, whichever reset request it serves (R221). -/
theorem exec_rst_takeReset_buffers {s t : State} (he : exec .rst (takeReset s) = .next t) : t.inp = s.inp ∧ t.out = s.out := by
  obtain ⟨hinp, hout, -⟩ := exec_writes_block he
  rw [hinp (by simp), hout (by simp), takeReset_inp, takeReset_out]
  exact ⟨rfl, rfl⟩

end Sys2Proof.Machine
end

section
/-! No step faults: an outcome of an operation is passed on, and no operation answers a fault (R44). -/

namespace Sys2Proof.Machine

theorem answer_ne_fault {s : State} {o : Host.Outcome State Fault Refusal} {f : Fault} (h : o ≠ .fault f) : answer s o ≠ .fault f := by
  unfold answer
  split
  · nofun
  · exact h
  · split <;> nofun

theorem loopAnswer_ne_fault {s : State} {rest : List RawBlock} {o : Host.Outcome State Fault Refusal} {f : Fault} (h : o ≠ .fault f) :
    loopAnswer s rest o ≠ .fault f := by
  unfold loopAnswer
  split
  · nofun
  · exact h
  · split <;> nofun

theorem requestStep_ne_fault (s : State) (f : Fault) : requestStep s ≠ .fault f := by
  unfold requestStep
  split
  · nofun
  · nofun
  · split
    · split
      · nofun
      · exact answer_ne_fault (exec_no_fault _ _ f)
    · exact answer_ne_fault nofun
    · nofun

theorem loopStep_ne_fault (s : State) (f : Fault) : loopStep s ≠ .fault f := by
  unfold loopStep
  split
  · nofun
  · split
    · nofun
    · split
      · nofun
      · exact loopAnswer_ne_fault (exec_no_fault _ _ f)

end Sys2Proof.Machine
end

section
/-! The statements on the memory. -/

open Sys2Proof Sys2Proof.Machine

/-- Settles O9: a reset leaves the buffers, and any other step leaves all but the requests, the loop flag and the reply. -/
theorem nothingElseActsDuringABlock : Obligations.NothingElseActsDuringABlock := by
  intro s t hbusy hwait hs
  rcases step_busy_cases hbusy hwait hs with ⟨hw, he⟩ | ht
  · obtain ⟨hinp, hout⟩ := exec_rst_takeReset_buffers he
    exact ⟨hinp, hout, fun hw' => by simp [hw] at hw'⟩
  · exact ⟨by rw [ht], by rw [ht], fun _ => ht⟩

/-- Settles O16: `DEC` and an accepted `PROC` load their operand, and nothing they do afterwards writes `IN`. -/
theorem deliveredBlockIsTheInput : Obligations.DeliveredBlockIsTheInput := by
  intro s bs
  refine ⟨⟨_, execDec_eq bs s, rfl⟩, fun t he => ?_, Block.wf_ofBytes bs, Block.len_ofBytes bs, Block.readByte_ofBytes bs⟩
  obtain ⟨-, -, ⟨-, rfl⟩ | ⟨out, -, -, -, rfl⟩⟩ := execProc_next_cases he
  · rfl
  · obtain ⟨-, -, -, -, -, -, hinp⟩ := finishBlock_fields (afterStages (acceptBlock s bs) (channel0 bs)) out
    exact hinp

/-- Settles O50: a step answers a reset, a turn of the loop or a request, and none of them faults. -/
theorem noStepFaults : Obligations.NoStepFaults := by
  intro s f
  unfold step driverStep
  split
  · exact exec_no_fault .rst (takeReset s) f
  · split
    · exact loopStep_ne_fault (takeOffered s) f
    · exact requestStep_ne_fault (takeOffered s) f

/-- Settles O53: every move of a step extends what the sink has, and the invariant after the step makes the new blocks whole. -/
theorem sinkOnlyGrows : Obligations.SinkOnlyGrows := by
  intro s t hinv hs
  obtain ⟨more, hmore⟩ := (sink_isPrefix_movesKeep _ s.sink).step hs (by rfl)
  obtain ⟨-, -, -, hwhole⟩ := t.inv_iff.mp ((inv_movesKeep _).step hs hinv)
  refine ⟨more, hmore.symm, fun b hb => ?_⟩
  have hb' : wholeFrames b = true := hwhole b (by rw [← hmore]; exact List.mem_append_right _ hb)
  exact beq_iff_eq.mp hb'

end

section
/-! Requests and their meanings (R67, R70, R72). -/

namespace Sys2Proof

theorem decode_encode (i : Instr) : decode (encode i) = .ok i := by
  cases i with
  | rst => exact Laws.RoundTrip.rst.1
  | dec inp => exact (Laws.RoundTrip.dec inp).1
  | qdm x => exact (Laws.RoundTrip.qdm x).1
  | fir x => exact (Laws.RoundTrip.fir x).1
  | amp x => exact (Laws.RoundTrip.amp x).1
  | enc left right => exact (Laws.RoundTrip.enc left right).1
  | proc inp => exact (Laws.RoundTrip.proc inp).1

/-- Each branch of the operation map fixes the select code and the operands, and these are the operation's encoding. -/
theorem eq_encode_of_decode {r : OpRequest} {i : Instr} (h : decode r = .ok i) : r = encode i := by
  rcases r with ⟨opsel, operands⟩
  unfold decode at h
  split at h <;> cases h
  all_goals
    next hsel hargs => exact congrArg₂ OpRequest.mk (BitVec.eq_of_toNat_eq hsel) hargs

theorem decode_reserved (o : Operands) : decode ⟨0b111#3, o⟩ = .error .reservedOp := by cases o <;> rfl

end Sys2Proof

namespace Sys2Proof.Machine

/-- With the line clear, an oldest request other than `RST` asks for no reset, and with no loop running the step looks at it, after the
hand-over of a waiting block (log entry 11). -/
theorem step_eq_requestStep {s : State} {q : Request} {rest : List Request} (hline : s.resetReq = false) (hrun : s.running = false)
    (hq : s.requests = q :: rest) (hrst : q ≠ .op (encode .rst)) : step s = requestStep (takeOffered s) := by
  have hw : resetWanted s = false := by
    rw [Bool.eq_false_iff, Ne, resetWanted_iff, hline, hq]
    rintro (h | ⟨rest', h⟩)
    · cases h
    · exact hrst (List.cons.inj h).1
  obtain ⟨-, hrunning⟩ := takeOffered_requests s
  rw [step, driverStep, hw, hrunning, hrun, if_neg Bool.false_ne_true, if_neg Bool.false_ne_true]

theorem requestStep_run {s : State} {rest : List Request} (hq : s.requests = .run :: rest) :
    requestStep s = .next (((s.setRequests rest).setRunning true).setReply .none) := by
  rw [requestStep, hq]

theorem requestStep_reserved {s : State} {o : Operands} {rest : List Request} (hq : s.requests = .op ⟨0b111#3, o⟩ :: rest) :
    requestStep s = .next ((s.setRequests rest).setReply (.refused .reservedOp)) := by
  rw [requestStep, hq]
  simp only [decode_reserved]
  rfl

end Sys2Proof.Machine
end

section
/-! The value of a normal pattern (R64, R65). -/

namespace Sys2Proof.Machine

/-- A normal pattern stands for `n / d` when its significand times `d` is `n`, both counted at the place the exponent gives. -/
theorem scaledInt_mul_of_normal (x : F64) (e : Nat) (n d : Int) (hexp : expField x = e + 1) (he : e ≤ 1074)
    (hsig : signUnit (signBit x) * (2 ^ 52 + fracField x) * d = n * 2 ^ (1074 - e)) : scaledInt x * d = n * 2 ^ 1074 := by
  have hmag : magnitude x = (2 ^ 52 + fracField x) * 2 ^ e := by
    rw [magnitude, if_neg (by omega), hexp, Nat.add_sub_cancel]
  calc scaledInt x * d = signUnit (signBit x) * (2 ^ 52 + fracField x) * d * 2 ^ e := by
        rw [scaledInt_eq_signUnit_mul, hmag]
        push_cast
        ring
    _ = n * 2 ^ 1074 := by rw [hsig, mul_assoc, ← pow_add, Nat.sub_add_cancel he]

end Sys2Proof.Machine
end

section
/-! The codec identities (R115) and `ROUNDTRIP` (R73). -/

namespace Sys2Proof.Machine

/-- Scaling a decoded sample gives the sample's value back, exactly (R102, R107). -/
theorem scaled_dec1 (v : Sample) :
    isFinite (scaled (dec1 (sext16 v))) = true ∧ scaledInt (scaled (dec1 (sext16 v))) = v.toInt * 2 ^ 1074 := by
  rw [sext16_eq]
  obtain ⟨hfin, hmag, -⟩ := dec1_spec v.toInt (natAbs_toInt_le v)
  have hlt : magnitude (dec1 v.toInt) * 2 ^ 15 < 2 ^ 2098 := by
    calc magnitude (dec1 v.toInt) * 2 ^ 15 ≤ 2 ^ 15 * 2 ^ 1059 * 2 ^ 15 := by
          rw [hmag]
          exact Nat.mul_le_mul_right _ (Nat.mul_le_mul_right _ (natAbs_toInt_le v))
      _ = 2 ^ (15 + 1059 + 15) := by rw [pow_add, pow_add]
      _ < 2 ^ 2098 := pow_lt_inf (by omega)
  obtain ⟨hfin', hval⟩ := (scaled_finite hfin).1 hlt
  refine ⟨hfin', ?_⟩
  rw [hval, scaledInt_dec1, mul_assoc, show (32768 : Int) = 2 ^ 15 from rfl, ← pow_add]

/-- A decoded sample is quantised to the sample's value (R108). -/
theorem quantise_dec1 (v : Sample) : quantise (dec1 (sext16 v)) = some (.int v.toInt) := by
  obtain ⟨hfin, hval⟩ := scaled_dec1 v
  rw [quantise, trunc_finite hfin, hval, Int.mul_tdiv_cancel _ (pow_ne_zero _ two_ne_zero)]

/-- A right sample after `ROUNDTRIP`: biased by 32768 and clamped (R115). -/
def biased (v : Sample) : Int := if -1 ≤ v.toInt then 32767 else v.toInt + 32768

theorem encL_dec1 (v : Sample) : encL (dec1 (sext16 v)) = some v.toInt := by
  have hlo := BitVec.le_toInt v
  have hhi := BitVec.toInt_lt (x := v)
  rw [encL, quantise_dec1, Option.map_some, sat16, if_neg (by omega), if_neg (by omega)]

theorem encR_dec1 (v : Sample) : encR (dec1 (sext16 v)) = some (biased v) := by
  have hlo := BitVec.le_toInt v
  rw [encR, quantise_dec1, Option.map_some, extAdd, sat16, if_neg (by omega), biased]
  congr 1
  split <;> split <;> omega

/-- The integers `ROUNDTRIP` stores for a frame. -/
def roundTripFrame (f : Sample × Sample) : Int × Int := (f.1.toInt, biased f.2)

/-- Encoding the two streams of a list of frames (R73, R115). -/
theorem encSamples_dec1 : ∀ fs : List (Sample × Sample),
    encSamples (fs.map fun f => dec1 (sext16 f.1)) (fs.map fun f => dec1 (sext16 f.2)) = some (fs.map roundTripFrame)
  | [] => rfl
  | f :: fs => by
    rw [List.map_cons, List.map_cons, encSamples_cons, encL_dec1, encR_dec1, encSamples_dec1 fs]
    rfl

/-- `ENC` of operands it gives integers for completes with their output block (R106, R114). -/
theorem execEnc_of_encSamples {left right : List F64} {zs : List (Int × Int)} (s : State) (hlen : left.length = right.length)
    (hz : encSamples left right = some zs) :
    ∃ out, out.len = 4 * left.length ∧ out.bytes = zs.flatMap outFrame ∧
      execEnc left right s = .next ((s.setOut out).setReply (.block out.bytes)) := by
  rcases execEnc_eq left right s with ⟨hne, -⟩ | ⟨-, hnone, -⟩ | ⟨zs', out, -, hz', -, -, hl, hb, he⟩
  · exact absurd hlen hne
  · cases hz.symm.trans hnone
  · cases hz.symm.trans hz'
    exact ⟨out, hl, hb, he⟩

/-- `ROUNDTRIP` of whole frames is `ENC` of the two streams, in the state `DEC` leaves (R73). -/
theorem roundTrip_of_whole {bs : RawBlock} (s : State) (h : bs.length % 4 = 0) :
    roundTrip bs s =
      execEnc (channel0 bs) (channel1 bs) ((s.loadIn bs).setReply (.streams (channel0 bs) (channel1 bs))) := by
  rw [roundTrip, exec, execDec_eq, if_pos h]
  rfl

/-- A block that `DEC` rejects is not encoded (R73, R101). -/
theorem roundTrip_of_malformed {bs : RawBlock} (s : State) (h : bs.length % 4 ≠ 0) : roundTrip bs s = exec (.dec bs) s := by
  rw [roundTrip, exec, execDec_eq, if_neg h]
  rfl

/-- The samples stored by `ROUNDTRIP`, frame by frame (R114, R115). -/
theorem memRead2_roundTrip {bs : RawBlock} {out : Block} {i : Nat}
    (hb : out.bytes = ((framesOf bs).map roundTripFrame).flatMap outFrame) (hi : 4 * i + 3 < bs.length) :
    memRead2 out (4 * i) = some (sampleAt bs (4 * i)) ∧
      memRead2 out (4 * i + 2) = some (BitVec.ofInt 16 (biased (sampleAt bs (4 * i + 2)))) := by
  have hframe : ((framesOf bs).map roundTripFrame)[i]? =
      some ((sampleAt bs (4 * i)).toInt, biased (sampleAt bs (4 * i + 2))) := by
    rw [List.getElem?_map, framesOf_getElem? bs i hi]
    rfl
  obtain ⟨hl, hr⟩ := memRead2_of_bytes hb hframe
  rw [hl, hr, enc16_eq, enc16_eq, BitVec.ofInt_toInt]
  exact ⟨rfl, rfl⟩

end Sys2Proof.Machine
end

section
/-! The statements on the encoding. -/

open Sys2Proof Sys2Proof.Machine

/-- Settles O1, operation by operation. -/
theorem decodeInvertsEncode : Obligations.DecodeInvertsEncode := decode_encode

/-- Settles O2: a request that decodes is the operation's encoding, and the encoding decodes to it. -/
theorem onlyEncodingsDecode : Obligations.OnlyEncodingsDecode := by
  intro r i
  constructor
  · exact eq_encode_of_decode
  · rintro rfl
    exact decode_encode i

/-- Settles O3: the eight words of the table, each decoded. -/
theorem selectCodesOfTheOperationMap : Obligations.SelectCodesOfTheOperationMap := by
  unfold Obligations.SelectCodesOfTheOperationMap
  decide

/-- Settles O4: the decoder rejects the code by name, and the step answers that refusal. -/
theorem reservedCodeIsTurnedAway : Obligations.ReservedCodeIsTurnedAway := by
  intro o s rest
  refine ⟨decode_reserved o, fun hline hrun hoff hq => ?_⟩
  have hrst : Request.op ⟨0b111#3, o⟩ ≠ .op (encode .rst) := by simp [encode]
  rw [step_eq_requestStep hline hrun hq hrst, takeOffered_of_none hoff, requestStep_reserved hq]
  rfl

/-- Settles O8: the step looks at the `RUN` after the hand-over. -/
theorem runRequestStartsTheLoop : Obligations.RunRequestStartsTheLoop := by
  intro s rest hline hrun hq
  have hq' : (takeOffered s).requests = .run :: rest := (takeOffered_requests s).1.trans hq
  rw [step_eq_requestStep hline hrun hq nofun, requestStep_run hq']
  rfl

/-- Settles O59: every nonzero constant is a normal pattern, given here with its place and its value as a fraction. -/
theorem constantPatternsHaveTheirValues : Obligations.ConstantPatternsHaveTheirValues := by
  have hscale := scaledInt_mul_of_normal 0x40E0000000000000#64 1037 32768 1 (by decide) (by decide) (by decide)
  have hunscale := scaledInt_mul_of_normal 0x3F00000000000000#64 1007 1 32768 (by decide) (by decide) (by decide)
  have hgain := scaledInt_mul_of_normal 0x4069000000000000#64 1029 200 1 (by decide) (by decide) (by decide)
  have hone := scaledInt_mul_of_normal 0x3FF0000000000000#64 1022 1 1 (by decide) (by decide) (by decide)
  have hnegOne := scaledInt_mul_of_normal 0xBFF0000000000000#64 1022 (-1) 1 (by decide) (by decide) (by decide)
  have hhalf := scaledInt_mul_of_normal 0x3FE0000000000000#64 1021 1 2 (by decide) (by decide) (by decide)
  have hthreeHalves := scaledInt_mul_of_normal 0x3FF8000000000000#64 1022 3 2 (by decide) (by decide) (by decide)
  have hlargest := scaledInt_mul_of_normal 0x3FEFFFC000000000#64 1021 32767 32768 (by decide) (by decide) (by decide)
  simp only [mul_one, one_mul, neg_mul] at hscale hunscale hgain hone hnegOne hhalf
  exact ⟨hscale, hunscale, hgain, hone, hnegOne, hhalf, hthreeHalves, hlargest, by decide, by decide, by decide, by decide⟩

/-- Settles O23: `ENC` stores each frame's quantised samples; on another length `ROUNDTRIP` ends with its `DEC`. -/
theorem roundTripOfABlock : Obligations.RoundTripOfABlock := by
  intro s bs
  refine ⟨fun h => ?_, roundTrip_of_malformed s⟩
  obtain ⟨n, hn⟩ : ∃ n, bs.length = 4 * n := ⟨bs.length / 4, by omega⟩
  have hlen : (channel0 bs).length = (channel1 bs).length := by rw [length_channel0 hn, length_channel1 hn]
  obtain ⟨out, hout, hb, he⟩ :=
    execEnc_of_encSamples ((s.loadIn bs).setReply (.streams (channel0 bs) (channel1 bs))) hlen (encSamples_dec1 (framesOf bs))
  refine ⟨out, .block out.bytes, ?_, ?_, fun i hi => memRead2_roundTrip hb (by omega)⟩
  · rw [roundTrip_of_whole s h, he]
    rfl
  · rw [hout, length_channel0 hn, hn]

end


section
/-! The values the Sample Codec decodes to and encodes from (R102, R107 to R112). -/

namespace Sys2Proof.Machine

/-! ## Decoded streams -/

/-- Element `i` of the channel-0 stream (R52, R103). -/
theorem channel0_getElem? {bs : RawBlock} {i : Nat} (h : 4 * i + 3 < bs.length) :
    (channel0 bs)[i]? = some (dec1 (sampleAt bs (4 * i)).toInt) := by
  rw [channel0, List.getElem?_map, framesOf_getElem? bs i h, Option.map_some, sext16_eq]

/-- Element `i` of the channel-1 stream (R52, R103). -/
theorem channel1_getElem? {bs : RawBlock} {i : Nat} (h : 4 * i + 3 < bs.length) :
    (channel1 bs)[i]? = some (dec1 (sampleAt bs (4 * i + 2)).toInt) := by
  rw [channel1, List.getElem?_map, framesOf_getElem? bs i h, Option.map_some, sext16_eq]

/-- `DEC` of whole frames replies with the two streams (R100, R103). -/
theorem exec_dec_of_whole {bs : RawBlock} (s : State) (h : bs.length % 4 = 0) :
    exec (.dec bs) s = .next ((s.loadIn bs).setReply (.streams (channel0 bs) (channel1 bs))) := by
  rw [exec, execDec_eq, if_pos h]

/-- `DEC` of any other length replies with the exception (R101). -/
theorem exec_dec_of_malformed {bs : RawBlock} (s : State) (h : bs.length % 4 ≠ 0) :
    exec (.dec bs) s = .next ((s.loadIn bs).setReply (.malformedBlock 1 bs.length)) := by
  rw [exec, execDec_eq, if_neg h]

/-! ## Decoded values -/

/-- Decoding a sample divides its value by 32768, exactly (R102). -/
theorem scaledInt_dec1_mul (v : Sample) : scaledInt (dec1 v.toInt) * 32768 = v.toInt * 2 ^ 1074 := by
  rw [scaledInt_dec1, mul_assoc, show (32768 : Int) = 2 ^ 15 from rfl, ← pow_add]

/-- A decoded sample lies in `[-1.0, 32767/32768]` (R102). -/
theorem scaledInt_dec1_range (v : Sample) :
    -(2 ^ 1074) ≤ scaledInt (dec1 v.toInt) ∧ scaledInt (dec1 v.toInt) * 32768 ≤ 32767 * 2 ^ 1074 := by
  have hval := scaledInt_dec1_mul v
  have hone : (0 : Int) ≤ 2 ^ 1074 := pow_nonneg zero_le_two 1074
  have hlo := mul_le_mul_of_nonneg_right (BitVec.le_toInt v) hone
  have hhi := mul_le_mul_of_nonneg_right (Int.le_sub_one_of_lt (BitVec.toInt_lt (x := v))) hone
  rw [← hval] at hlo hhi
  generalize (2 : Int) ^ 1074 = one at hlo hhi
  constructor <;> omega

/-- A decoded sample determines the sample (R102). -/
theorem dec1_toInt_inj {v w : Sample} (h : dec1 v.toInt = dec1 w.toInt) : v = w := by
  have hscaled := scaledInt_dec1_mul v
  rw [h, scaledInt_dec1_mul] at hscaled
  exact BitVec.eq_of_toInt_eq (mul_right_cancel₀ (pow_ne_zero 1074 two_ne_zero) hscaled).symm

/-- A pattern with exponent field 0 has a magnitude below the least normal one (R64). -/
theorem magnitude_lt_of_expField_eq_zero {x : F64} (h : expField x = 0) : magnitude x < 2 ^ 52 := by
  rw [magnitude, if_pos h]
  exact Nat.mod_lt _ (by decide)

/-- A decoded sample is `+0.0` or normal (R102). -/
theorem dec1_eq_zero_or_normal (v : Sample) : dec1 v.toInt = 0x0000000000000000#64 ∨ expField (dec1 v.toInt) ≠ 0 := by
  obtain ⟨hfin, hmag, hsign⟩ := dec1_spec v.toInt (natAbs_toInt_le v)
  rcases Nat.eq_zero_or_pos v.toInt.natAbs with h0 | hpos
  · left
    have hv : v.toInt = 0 := by omega
    refine eq_of_fields hfin (by decide) ?_ ?_
    · rw [hmag, h0, Nat.zero_mul]
      rfl
    · rw [hsign, hv]
      rfl
  · right
    intro hexp
    have hlt : 2 ^ 52 < 2 ^ 52 := by
      calc 2 ^ 52 < 2 ^ 1059 := pow_lt_pow_right₀ one_lt_two (by decide)
        _ ≤ v.toInt.natAbs * 2 ^ 1059 := Nat.le_mul_of_pos_left _ hpos
        _ = magnitude (dec1 v.toInt) := hmag.symm
        _ < 2 ^ 52 := magnitude_lt_of_expField_eq_zero hexp
    exact lt_irrefl _ hlt

/-- The magnitude of the constant `1/32768` (R65). -/
theorem magnitude_unscale : magnitude 0x3F00000000000000#64 = 2 ^ 1059 := by
  rw [magnitude, show expField 0x3F00000000000000#64 = 1008 by decide, show fracField 0x3F00000000000000#64 = 0 by decide,
    if_neg (by omega), Nat.add_zero, ← pow_add]

/-- Multiplying a sample's value by `1/32768` is exact too, so it gives what the division gives (R102). -/
theorem dec1_eq_fmul (v : Sample) : dec1 v.toInt = fmul (i2f v.toInt) 0x3F00000000000000#64 := by
  have hle := natAbs_toInt_le v
  obtain ⟨hfin, hmag, hsign⟩ := dec1_spec v.toInt hle
  obtain ⟨hfin', hmag', hsign'⟩ := i2f_spec v.toInt hle
  have hlt : v.toInt.natAbs * 2 ^ 1059 < 2 ^ 2098 := by
    calc v.toInt.natAbs * 2 ^ 1059 ≤ 2 ^ 15 * 2 ^ 1059 := Nat.mul_le_mul_right _ hle
      _ = 2 ^ (15 + 1059) := (pow_add 2 15 1059).symm
      _ < 2 ^ 2098 := pow_lt_inf (by omega)
  obtain ⟨hfinP, hmagP, hsignP⟩ := magnitude_roundPack (num := v.toInt.natAbs * 2 ^ 1074 * 2 ^ 1059) (den := 2 ^ 1074)
    (decide (v.toInt < 0) != false) (Nat.two_pow_pos _) (hle.trans_lt (by decide)) (Nat.mul_right_comm _ _ _) hlt
  rw [fmul_finite hfin' (by decide), hmag', hsign', magnitude_unscale, show signBit 0x3F00000000000000#64 = false by decide]
  exact eq_of_fields hfin hfinP (hmag.trans hmagP.symm) (by rw [hsign, hsignP, Bool.bne_false])

/-! ## Encoded values -/

/-- Saturation is the clamp of R111. -/
theorem sat16_int (z : Int) : sat16 (.int z) = clamp16 z := by
  rw [sat16, clamp16]
  split
  · omega
  · split <;> omega

/-- Truncating an infinity (R7). -/
theorem trunc_of_isInf {x : F64} (h : isInf x = true) : trunc x = some (if signBit x then .negInf else .posInf) := by
  rw [trunc, isNaN_eq_false_of_isInf h, h, if_neg Bool.false_ne_true, if_pos rfl]

/-- Scaling keeps an infinity (R112). -/
theorem scaled_of_isInf {v : F64} (h : isInf v = true) : isInf (scaled v) = true ∧ signBit (scaled v) = signBit v := by
  have hmul : scaled v = pack (signBit v != signBit scale) infLow := (fmul_inf_eq_infPack h (by decide) (by decide)).1
  rw [hmul, isInf_infPack, signBit_infPack, show signBit scale = false by decide, Bool.bne_false]
  exact ⟨rfl, rfl⟩

/-- A value whose scaled value is infinite saturates on both channels, the bias being lost in the infinity (R112). -/
theorem enc_of_isInf_scaled {v : F64} (hinf : isInf (scaled v) = true) (hsign : signBit (scaled v) = signBit v) :
    encL v = some (if signBit v then -32768 else 32767) ∧ encR v = some (if signBit v then -32768 else 32767) := by
  rw [encL, encR, quantise, trunc_of_isInf hinf, hsign]
  cases signBit v <;> exact ⟨rfl, rfl⟩

/-- The scaled value of a finite `v`, exact and truncated toward zero (R107, R108). -/
def scaledTrunc (v : F64) : Int := Int.tdiv (scaledInt v * 32768) (2 ^ 1074)

/-- A finite value whose scaled value is finite is truncated, biased on the right, and clamped (R108 to R111). -/
theorem enc_of_isFinite_scaled {v : F64} (hfin : isFinite (scaled v) = true) (hval : scaledInt (scaled v) = scaledInt v * 32768) :
    encL v = some (clamp16 (scaledTrunc v)) ∧ encR v = some (clamp16 (scaledTrunc v + 32768)) := by
  rw [encL, encR, quantise, trunc_finite hfin, hval, Option.map_some, Option.map_some, extAdd, sat16_int, sat16_int]
  exact ⟨rfl, rfl⟩

theorem scaledTrunc_eq (v : F64) :
    scaledTrunc v = if signBit v then -((magnitude v * 2 ^ 15 / 2 ^ 1074 : Nat) : Int) else (magnitude v * 2 ^ 15 / 2 ^ 1074 : Nat) := by
  rw [← tdiv_sign, scaledTrunc, scaledInt_eq, mul_assoc, Nat.cast_mul, Nat.cast_pow, Nat.cast_pow]
  rfl

/-- Where the scaled value overflows, the exact one lies beyond both clamps, with the bias or without it (R112). -/
theorem clamp16_of_overflow {v : F64} (h : 2 ^ 2098 ≤ magnitude v * 2 ^ 15) :
    clamp16 (scaledTrunc v) = (if signBit v then -32768 else 32767) ∧
      clamp16 (scaledTrunc v + 32768) = (if signBit v then -32768 else 32767) := by
  have hbig : 2 ^ 16 ≤ magnitude v * 2 ^ 15 / 2 ^ 1074 := by
    rw [Nat.le_div_iff_mul_le (Nat.two_pow_pos _), ← pow_add]
    exact (pow_lt_inf (by omega)).le.trans h
  rw [scaledTrunc_eq, clamp16, clamp16]
  generalize magnitude v * 2 ^ 15 / 2 ^ 1074 = q at hbig
  split <;> omega

/-- What a finite value encodes to, whether or not the scaled value overflows (R107 to R112). -/
theorem enc_of_isFinite {v : F64} (h : isFinite v = true) :
    encL v = some (clamp16 (scaledTrunc v)) ∧ encR v = some (clamp16 (scaledTrunc v + 32768)) := by
  obtain ⟨hexact, hover⟩ := scaled_finite h
  rcases Nat.lt_or_ge (magnitude v * 2 ^ 15) (2 ^ 2098) with hlt | hge
  · obtain ⟨hfin, hval⟩ := hexact hlt
    exact enc_of_isFinite_scaled hfin hval
  · obtain ⟨hinf, hsign⟩ := hover hge
    obtain ⟨hl, hr⟩ := clamp16_of_overflow hge
    rw [hl, hr]
    exact enc_of_isInf_scaled hinf hsign

/-- A NaN encodes to nothing (R113). -/
theorem enc_of_isNaN {v : F64} (h : isNaN v = true) : encL v = none ∧ encR v = none := by
  rw [encL, encR, (quantise_eq_none_iff v).mpr h]
  exact ⟨rfl, rfl⟩

end Sys2Proof.Machine
end

section
/-! The statements on the Sample Codec. -/

open Sys2Proof Sys2Proof.Machine

/-- Settles O14: `DEC` replies with the streams of the block's frames, and each element is its frame's sample decoded. -/
theorem decGivesTheTwoStreams : Obligations.DecGivesTheTwoStreams := by
  intro s bs h
  have hn : bs.length = 4 * (bs.length / 4) := by omega
  refine ⟨channel0 bs, channel1 bs, _, exec_dec_of_whole s h, rfl, length_channel0 hn, length_channel1 hn, fun i hi => ?_⟩
  have hi' : 4 * i + 3 < bs.length := by omega
  exact ⟨channel0_getElem? hi', channel1_getElem? hi'⟩

/-- Settles O17: a decoded sample is the exact quotient, from which its range and its injectivity follow. -/
theorem decodedValueIsExact : Obligations.DecodedValueIsExact := by
  intro v w
  obtain ⟨hlo, hhi⟩ := scaledInt_dec1_range v
  obtain ⟨hfin, -, -⟩ := dec1_spec v.toInt (natAbs_toInt_le v)
  rw [sext16_eq, sext16_eq]
  exact ⟨hfin, scaledInt_dec1_mul v, dec1_eq_fmul v, dec1_eq_zero_or_normal v, hlo, hhi, dec1_toInt_inj⟩

/-- Settles O18: a finite value, an infinity and a NaN, each by its own law. -/
theorem encodingTruncatesBiasesAndClamps : Obligations.EncodingTruncatesBiasesAndClamps := by
  intro v
  refine ⟨enc_of_isFinite, fun hinf => ?_, enc_of_isNaN⟩
  obtain ⟨hinf', hsign⟩ := scaled_of_isInf hinf
  exact enc_of_isInf_scaled hinf' hsign

/-- Settles O19: without a NaN there are integers for every frame, and the output block stores them in order. -/
theorem encStoresEveryFrame : Obligations.EncStoresEveryFrame := by
  intro s left right hlen hl hr
  rcases execEnc_eq left right s with ⟨hne, -⟩ | ⟨-, hnone, -⟩ | ⟨zs, out, -, hz, -, hwf, hout, hbytes, he⟩
  · exact absurd hlen hne
  · have hsome := (encSamples_isSome_iff hlen).mpr ⟨hl, hr⟩
    rw [hnone] at hsome
    cases hsome
  · refine ⟨out, he, hwf, hout, fun i l r hil hir => ?_⟩
    obtain ⟨zl, zr, hzl, hzr, hi⟩ := (encSamples_spec hlen hz).2 i l r hil hir
    obtain ⟨hml, hmr⟩ := memRead2_of_bytes hbytes hi
    exact ⟨zl, zr, hzl, hzr, hml.trans (by rw [enc16_eq]), hmr.trans (by rw [enc16_eq])⟩

/-- Settles O20: of the three things `ENC` can do, each condition leaves one. -/
theorem encRefusesWhatHasNoMeaning : Obligations.EncRefusesWhatHasNoMeaning := by
  intro s left right
  rcases execEnc_eq left right s with ⟨hne, he⟩ | ⟨hlen, -, he⟩ | ⟨zs, out, hlen, hz, -⟩
  · exact ⟨fun _ => he, fun hlen _ => absurd hlen hne⟩
  · exact ⟨fun hne => absurd hlen hne, fun _ _ => he⟩
  · obtain ⟨hl, hr⟩ := (encSamples_isSome_iff hlen).mp (by rw [hz]; rfl)
    refine ⟨fun hne => absurd hlen hne, fun _ hnan => ?_⟩
    rw [hl, hr] at hnan
    rcases hnan with h | h <;> cases h

/-- Settles O21: the quantised value of a decoded sample is the sample, which the left channel keeps and the right one biases. -/
theorem codecRoundTrip : Obligations.CodecRoundTrip := fun v => ⟨encL_dec1 v, encR_dec1 v⟩

/-- Settles O15: the length test alone decides which reply `DEC` gives, and the empty block passes it. -/
theorem decChecksTheLengthFirst : Obligations.DecChecksTheLengthFirst :=
  ⟨fun s _ h => ⟨_, exec_dec_of_malformed s h, rfl⟩, fun s => ⟨_, exec_dec_of_whole s rfl, rfl⟩⟩

end

section
/-! The quadrature demodulator's calls and products (R120 to R124). -/

namespace Sys2Proof.Machine

/-! ## The calls -/

/-- `QDM` completes on every sequence, and leaves all but `PREV` and the reply (R120). -/
theorem exec_qdm (x : List F64) (s : State) :
    exec (.qdm x) s = .next { s with prev := (qdmSeq s.prev x).2, reply := .samples (qdmSeq s.prev x).1 } := rfl

/-! ## Exact products -/

/-- A product of finite values is exact when its magnitude is a finite 53-bit significand at some place (R7). -/
theorem fmul_exact {a b : F64} {m e : Nat} (ha : isFinite a = true) (hb : isFinite b = true) (hm : m < 2 ^ 53)
    (h : magnitude a * magnitude b = m * 2 ^ e * 2 ^ 1074) (hlt : m * 2 ^ e < 2 ^ 2098) :
    isFinite (fmul a b) = true ∧ scaledInt (fmul a b) * 2 ^ 1074 = scaledInt a * scaledInt b := by
  obtain ⟨hfin, hmag, hsign⟩ := magnitude_roundPack (signBit a != signBit b) (Nat.two_pow_pos 1074) hm h hlt
  rw [fmul_finite ha hb]
  refine ⟨hfin, ?_⟩
  rw [scaledInt_eq_signUnit_mul, hsign, hmag, scaledInt_mul_scaledInt, h,
    Nat.cast_mul (m * 2 ^ e), Nat.cast_pow, Nat.cast_ofNat, mul_assoc]

/-! ## Products of decoded samples -/

/-- The magnitudes of two decoded samples multiply to a 31-bit significand (R124). -/
theorem magnitude_dec1_mul (v w : Sample) :
    magnitude (dec1 v.toInt) * magnitude (dec1 w.toInt) = v.toInt.natAbs * w.toInt.natAbs * 2 ^ 1044 * 2 ^ 1074 := by
  obtain ⟨-, hv, -⟩ := dec1_spec v.toInt (natAbs_toInt_le v)
  obtain ⟨-, hw, -⟩ := dec1_spec w.toInt (natAbs_toInt_le w)
  rw [hv, hw, mul_mul_mul_comm, ← pow_add, mul_assoc (v.toInt.natAbs * w.toInt.natAbs), ← pow_add]

theorem natAbs_toInt_mul_le (v w : Sample) : v.toInt.natAbs * w.toInt.natAbs ≤ 2 ^ 30 := by
  rw [show 2 ^ 30 = 2 ^ 15 * 2 ^ 15 from rfl]
  exact Nat.mul_le_mul (natAbs_toInt_le v) (natAbs_toInt_le w)

/-- Multiplying two decoded samples is exact: `v * w / 2^30` (R124 (b)). -/
theorem fmul_dec1_exact (v w : Sample) :
    isFinite (fmul (dec1 v.toInt) (dec1 w.toInt)) = true ∧
      scaledInt (fmul (dec1 v.toInt) (dec1 w.toInt)) * 2 ^ 30 = v.toInt * w.toInt * 2 ^ 1074 := by
  obtain ⟨hv, -, -⟩ := dec1_spec v.toInt (natAbs_toInt_le v)
  obtain ⟨hw, -, -⟩ := dec1_spec w.toInt (natAbs_toInt_le w)
  have hm := natAbs_toInt_mul_le v w
  have hlt : v.toInt.natAbs * w.toInt.natAbs * 2 ^ 1044 < 2 ^ 2098 := by
    calc v.toInt.natAbs * w.toInt.natAbs * 2 ^ 1044 ≤ 2 ^ 30 * 2 ^ 1044 := Nat.mul_le_mul_right _ hm
      _ = 2 ^ (30 + 1044) := (pow_add 2 30 1044).symm
      _ < 2 ^ 2098 := pow_lt_inf (by omega)
  obtain ⟨hfin, hval⟩ := fmul_exact hv hw (hm.trans_lt (by decide)) (magnitude_dec1_mul v w) hlt
  refine ⟨hfin, mul_right_cancel₀ (pow_ne_zero 1044 two_ne_zero) ?_⟩
  calc scaledInt (fmul (dec1 v.toInt) (dec1 w.toInt)) * 2 ^ 30 * 2 ^ 1044
      = scaledInt (dec1 v.toInt) * scaledInt (dec1 w.toInt) := by rw [← hval, mul_assoc, ← pow_add]
    _ = v.toInt * w.toInt * 2 ^ 1074 * 2 ^ 1044 := by
        rw [scaledInt_dec1, scaledInt_dec1, mul_mul_mul_comm, ← pow_add, mul_assoc (v.toInt * w.toInt), ← pow_add]

/-- Two samples multiply to at most `2^30`, at `-32768` twice, and to at least `-32767 * 32768`: the two signs have unlike bounds. -/
theorem toInt_mul_range (v w : Sample) : -(32767 * 2 ^ 15) ≤ v.toInt * w.toInt ∧ v.toInt * w.toInt ≤ 2 ^ 30 := by
  have hvlo : -32768 ≤ v.toInt := BitVec.le_toInt v
  have hvhi : v.toInt ≤ 32767 := Int.le_sub_one_of_lt (BitVec.toInt_lt (x := v))
  have hwlo : -32768 ≤ w.toInt := BitVec.le_toInt w
  have hwhi : w.toInt ≤ 32767 := Int.le_sub_one_of_lt (BitVec.toInt_lt (x := w))
  constructor
  · rcases le_total 0 v.toInt with hv | hv
    · have hprod := mul_le_mul_of_nonneg_left hwlo hv
      omega
    · have hprod := mul_le_mul_of_nonpos_left hwhi hv
      omega
  · calc v.toInt * w.toInt ≤ ((v.toInt * w.toInt).natAbs : Int) := Int.le_natAbs
      _ ≤ 2 ^ 30 := by rw [Int.natAbs_mul]; exact_mod_cast natAbs_toInt_mul_le v w

/-- The product of two decoded samples lies in `[-32767/32768, 1.0]` (R124 (c)). -/
theorem scaledInt_fmul_dec1_range (v w : Sample) :
    -(32767 * 2 ^ 1074) ≤ scaledInt (fmul (dec1 v.toInt) (dec1 w.toInt)) * 32768 ∧
      scaledInt (fmul (dec1 v.toInt) (dec1 w.toInt)) ≤ 2 ^ 1074 := by
  obtain ⟨-, hval⟩ := fmul_dec1_exact v w
  obtain ⟨hlo, hhi⟩ := toInt_mul_range v w
  have hone : (0 : Int) ≤ 2 ^ 1074 := pow_nonneg zero_le_two 1074
  replace hlo := mul_le_mul_of_nonneg_right hlo hone
  replace hhi := mul_le_mul_of_nonneg_right hhi hone
  rw [← hval] at hlo hhi
  generalize (2 : Int) ^ 1074 = one at hlo hhi
  constructor <;> omega

/-! ## The product with the reset value of `PREV` -/

/-- `+0.0` times a finite value is a zero of that value's sign (R124 (a)). -/
theorem fmul_posZero_of_isFinite {x : F64} (h : isFinite x = true) :
    fmul posZero x = if signBit x then 0x8000000000000000#64 else 0x0000000000000000#64 := by
  have hround : roundLow (magnitude posZero * magnitude x) (2 ^ 1074) = 0 := by
    rw [show magnitude posZero = 0 by decide, Nat.zero_mul]
    exact roundLow_exact (Nat.two_pow_pos _) (Nat.zero_le _) (by rw [magLow_zero, Nat.zero_mul])
  rw [fmul_finite (by decide) h, hround, show signBit posZero = false by decide, Bool.false_bne]
  cases signBit x <;> rfl

theorem isFinite_eq_false_iff (x : F64) : isFinite x = false ↔ isNaN x = true ∨ isInf x = true := by
  rw [← Bool.not_eq_true, isFinite_iff, not_and_or, Bool.not_eq_false, Bool.not_eq_false]

/-- `+0.0` times an infinity or a NaN is a NaN (R124 (a)). -/
theorem isNaN_fmul_posZero {x : F64} (h : isFinite x = false) : isNaN (fmul posZero x) = true := by
  rw [isNaN_fmul, show isZero posZero = true by decide]
  rcases (isFinite_eq_false_iff x).mp h with hnan | hinf
  · simp [hnan]
  · simp [hinf]

end Sys2Proof.Machine
end

section
/-! The statements on the quadrature demodulator. -/

open Sys2Proof Sys2Proof.Machine

/-- Settles O24: the fold's outputs, read at each index, and the value it ends with. -/
theorem qdmMultipliesByThePreviousSample : Obligations.QdmMultipliesByThePreviousSample := by
  intro s x
  rw [exec_qdm, qdmSeq_snd]
  exact ⟨_, rfl, length_qdmSeq s.prev x, qdmSeq_getElem? s.prev x⟩

/-- Settles O25: the fold over a concatenation is the second part's fold from where the first part's ended. -/
theorem qdmIsContinuousAcrossCalls : Obligations.QdmIsContinuousAcrossCalls := by
  intro s a b
  refine ⟨_, _, _, _, exec_qdm a s, exec_qdm b _, ?_⟩
  rw [exec_qdm, qdmSeq_append]

/-- Settles O26: the exact product needs 31 bits of significand, so it is not rounded, and its range is that of `v * w`. -/
theorem demodulatedProductIsExact : Obligations.DemodulatedProductIsExact := by
  intro v w
  obtain ⟨hfin, hval⟩ := fmul_dec1_exact v w
  rw [sext16_eq, sext16_eq]
  exact ⟨hfin, hval, scaledInt_fmul_dec1_range v w⟩

/-- Settles O27: the one output is the product of `+0.0` and the sample. -/
theorem firstDemodulatedSampleIsAZero : Obligations.FirstDemodulatedSampleIsAZero := by
  intro s x hprev
  refine ⟨fmul posZero x, ?_, fmul_posZero_of_isFinite, isNaN_fmul_posZero⟩
  rw [exec_qdm, hprev, qdmSeq_cons, qdmSeq_nil]

end

section
/-! The filter's window, its ordered sum, and what passes through it (R130 to R139). -/

namespace Sys2Proof.Machine

/-! ## The calls -/

/-- `FIR` completes on every sequence, and leaves all but `H` and the reply (R130). -/
theorem exec_fir (x : List F64) (s : State) :
    exec (.fir x) s = .next { s with hist := (firSeq s.coeff s.hist x).2, reply := .samples (firSeq s.coeff s.hist x).1 } := rfl

/-! ## The ordered sum -/

theorem orderedSum_eq_dotFrom (w c : List F64) : orderedSum w c = dotFrom posZero (w.zip c) := (dotFrom_eq _ _).symm

theorem dotFrom_append : ∀ (acc : F64) (ps qs : List (F64 × F64)), dotFrom acc (ps ++ qs) = dotFrom (dotFrom acc ps) qs
  | _, [], _ => rfl
  | acc, p :: ps, qs => dotFrom_append (fadd acc (fmul p.1 p.2)) ps qs

/-- A NaN in the accumulator stays there. -/
theorem isNaN_dotFrom_of_acc : ∀ {acc : F64} (ps : List (F64 × F64)), isNaN acc = true → isNaN (dotFrom acc ps) = true
  | _, [], h => h
  | _, _ :: ps, h => isNaN_dotFrom_of_acc ps (by simp [isNaN_fadd, h])

/-- A NaN among the samples reaches the sum, whatever its coefficient. -/
theorem isNaN_dotFrom_of_mem {p : F64 × F64} (hp : isNaN p.1 = true) :
    ∀ {ps : List (F64 × F64)} (acc : F64), p ∈ ps → isNaN (dotFrom acc ps) = true
  | q :: ps, acc, hmem => by
    rcases List.mem_cons.mp hmem with rfl | htail
    · exact isNaN_dotFrom_of_acc ps (by simp [isNaN_fadd, isNaN_fmul, hp])
    · exact isNaN_dotFrom_of_mem hp (fadd acc (fmul q.1 q.2)) htail

/-- A NaN in a window no longer than the table makes the sum a NaN (R139). -/
theorem isNaN_orderedSum {w cs : List F64} {i : Nat} {v : F64} (hi : w[i]? = some v) (hv : isNaN v = true) (hlen : w.length ≤ cs.length) :
    isNaN (orderedSum w cs) = true := by
  obtain ⟨hlt, hget⟩ := List.getElem?_eq_some_iff.mp hi
  have hmem : (w[i], cs[i]) ∈ w.zip cs := List.mem_iff_getElem.mpr ⟨i, by rw [List.length_zip]; omega, List.getElem_zip⟩
  rw [orderedSum_eq_dotFrom]
  exact isNaN_dotFrom_of_mem (by rw [hget, hv]) posZero hmem

/-! ## Sums and products that need no rounding -/

/-- Rounding the magnitude of a finite value gives the value back. -/
theorem roundPack_magnitude {x : F64} {den : Nat} (hx : isFinite x = true) (hd : 0 < den) :
    pack (signBit x) (roundLow (magnitude x * den) den) = x := by
  obtain ⟨low, h63, hlow⟩ := exists_pack x
  have hmag : magnitude x = magLow low := by rw [hlow, magnitude_pack _ h63]
  have hle : low ≤ infLow := by
    rw [hlow, isFinite, expField_pack _ h63, bne_iff_ne] at hx
    unfold infLow
    omega
  rw [roundLow_exact hd hle (by rw [hmag]), ← hlow]

/-- `1.0` times a finite value is that value (R136). -/
theorem fmul_one_left {x : F64} (hx : isFinite x = true) : fmul 0x3FF0000000000000#64 x = x := by
  have hone : magnitude 0x3FF0000000000000#64 = 2 ^ 1074 := by
    rw [magnitude, show expField 0x3FF0000000000000#64 = 1023 by decide, show fracField 0x3FF0000000000000#64 = 0 by decide,
      if_neg (by omega), Nat.add_zero, ← pow_add]
  rw [fmul_finite (by decide) hx, hone, show signBit 0x3FF0000000000000#64 = false by decide, Bool.false_bne, Nat.mul_comm]
  exact roundPack_magnitude hx (Nat.two_pow_pos _)

theorem natAbs_scaledInt (x : F64) : (scaledInt x).natAbs = magnitude x := by
  unfold scaledInt
  split <;> omega

theorem scaledInt_eq_zero_iff (x : F64) : scaledInt x = 0 ↔ isZero x = true := by
  rw [← magnitude_eq_zero_iff, ← natAbs_scaledInt, Int.natAbs_eq_zero]

theorem isFinite_of_isZero {x : F64} (h : isZero x = true) : isFinite x = true := by
  rw [isZero, Bool.and_eq_true, beq_iff_eq, beq_iff_eq] at h
  simp [isFinite, h]

theorem signBit_eq_of_scaledInt_ne_zero {x : F64} (h : scaledInt x ≠ 0) : decide (scaledInt x < 0) = signBit x := by
  unfold scaledInt at h ⊢
  cases signBit x <;> simp at h ⊢
  omega

/-- A sum of finite values that is a finite value is that value, the sign of an exact zero apart (R7). -/
theorem fadd_exact {a b x : F64} (ha : isFinite a = true) (hb : isFinite b = true) (hx : isFinite x = true)
    (hval : scaledInt a + scaledInt b = scaledInt x) (hzero : isZero x = true → (signBit a && signBit b) = signBit x) :
    fadd a b = x := by
  have hsign : sumSign a b (scaledInt x) = signBit x := by
    by_cases h : scaledInt x = 0
    · rw [sumSign, if_pos h, hzero ((scaledInt_eq_zero_iff x).mp h)]
    · rw [sumSign_of_ne_zero a b h, signBit_eq_of_scaledInt_ne_zero h]
  rw [fadd_finite ha hb, hval, packSum_eq_roundPack, hsign, natAbs_scaledInt, ← Nat.mul_one (magnitude x)]
  exact roundPack_magnitude hx Nat.one_pos

/-! ## Zeros in the sum -/

/-- `x` with `+0.0` for a zero of either sign: what a sum from `+0.0` holds after the one addend `x`. -/
def withoutNegZero (x : F64) : F64 := if isZero x then posZero else x

theorem isFinite_withoutNegZero {x : F64} (h : isFinite x = true) : isFinite (withoutNegZero x) = true := by
  unfold withoutNegZero
  split
  · decide
  · exact h

theorem scaledInt_withoutNegZero (x : F64) : scaledInt (withoutNegZero x) = scaledInt x := by
  unfold withoutNegZero
  split
  · next h => rw [(scaledInt_eq_zero_iff x).mpr h]; decide
  · rfl

theorem signBit_withoutNegZero {x : F64} (h : isZero (withoutNegZero x) = true) : signBit (withoutNegZero x) = false := by
  unfold withoutNegZero at h ⊢
  split
  · decide
  · next hx => rw [if_neg hx] at h; exact absurd h hx

theorem fadd_posZero_left {x : F64} (hx : isFinite x = true) : fadd posZero x = withoutNegZero x := by
  refine fadd_exact (by decide) hx (isFinite_withoutNegZero hx) ?_ fun hz => ?_
  · rw [scaledInt_withoutNegZero, show scaledInt posZero = 0 by decide, Int.zero_add]
  · rw [signBit_withoutNegZero hz, show signBit posZero = false by decide, Bool.false_and]

/-- A zero of either sign added to what is no `-0.0` changes nothing. -/
theorem fadd_withoutNegZero {x z : F64} (hx : isFinite x = true) (hz : isZero z = true) :
    fadd (withoutNegZero x) z = withoutNegZero x := by
  have hfin := isFinite_withoutNegZero hx
  refine fadd_exact hfin (isFinite_of_isZero hz) hfin ?_ fun h => ?_
  · rw [(scaledInt_eq_zero_iff z).mpr hz, Int.add_zero]
  · rw [signBit_withoutNegZero h, Bool.false_and]

theorem isZero_fmul_posZero {x : F64} (h : isFinite x = true) : isZero (fmul posZero x) = true := by
  rw [fmul_posZero_of_isFinite h]
  split <;> decide

/-- Samples `+0.0` leave the accumulator as it is. -/
theorem dotFrom_replicate_posZero {x : F64} (hx : isFinite x = true) : ∀ (n : Nat) {c : List F64}, (∀ v ∈ c, isFinite v = true) →
    dotFrom (withoutNegZero x) ((List.replicate n posZero).zip c) = withoutNegZero x
  | 0, _, _ => rfl
  | _ + 1, [], _ => rfl
  | n + 1, v :: c, hc => by
    obtain ⟨hv, hrest⟩ := List.forall_mem_cons.mp hc
    rw [List.replicate_succ, List.zip_cons_cons, dotFrom, fadd_withoutNegZero hx (isZero_fmul_posZero hv)]
    exact dotFrom_replicate_posZero hx n hrest

theorem orderedSum_replicate_posZero (n : Nat) {c : List F64} (hc : ∀ v ∈ c, isFinite v = true) :
    orderedSum (List.replicate n posZero) c = posZero := by
  rw [orderedSum_eq_dotFrom]
  exact dotFrom_replicate_posZero (x := posZero) (by decide) n hc

/-! ## The impulse -/

/-- With the impulse at place `k` and `+0.0` elsewhere, the sum is the coefficient at `k` (R136). -/
theorem orderedSum_impulse {cs : List F64} {k m : Nat} (hc : ∀ v ∈ cs, isFinite v = true) (hk : k < cs.length) :
    orderedSum (List.replicate k posZero ++ 0x3FF0000000000000#64 :: List.replicate m posZero) cs = withoutNegZero cs[k] := by
  have hfin : isFinite cs[k] = true := hc _ (List.getElem_mem hk)
  have hzip : (List.replicate k posZero ++ 0x3FF0000000000000#64 :: List.replicate m posZero).zip cs =
      (List.replicate k posZero).zip (cs.take k) ++ (0x3FF0000000000000#64, cs[k]) :: (List.replicate m posZero).zip (cs.drop (k + 1)) := by
    conv_lhs => rw [← List.take_append_drop k cs, List.drop_eq_getElem_cons hk]
    rw [List.zip_append (by simp; omega), List.zip_cons_cons]
  have hbefore := orderedSum_replicate_posZero k fun v hv => hc v (List.mem_of_mem_take (i := k) hv)
  rw [orderedSum_eq_dotFrom, hzip, dotFrom_append, ← orderedSum_eq_dotFrom, hbefore, dotFrom, fmul_one_left hfin, fadd_posZero_left hfin]
  exact dotFrom_replicate_posZero hfin m fun v hv => hc v (List.mem_of_mem_drop hv)

/-- The window of output `j` while the impulse is in it, and after. -/
theorem window_impulse {j n : Nat} (hj : j ≤ 26) (hn : j ≤ n) :
    ((List.replicate 27 posZero ++ 0x3FF0000000000000#64 :: List.replicate n posZero).drop (j + 1)).take 27 =
      List.replicate (26 - j) posZero ++ 0x3FF0000000000000#64 :: List.replicate j posZero := by
  rw [List.drop_append_of_le_length (by simp; omega), List.drop_replicate, List.take_append, List.take_replicate,
    List.length_replicate, show 27 - (27 - (j + 1)) = j + 1 by omega, List.take_succ_cons, List.take_replicate,
    show min 27 (27 - (j + 1)) = 26 - j by omega, Nat.min_eq_left hn]

theorem window_after_impulse {j n : Nat} (hj : 26 < j) (hn : j ≤ n) :
    ((List.replicate 27 posZero ++ 0x3FF0000000000000#64 :: List.replicate n posZero).drop (j + 1)).take 27 =
      List.replicate 27 posZero := by
  obtain ⟨k, rfl⟩ : ∃ k, j = 27 + k := ⟨j - 27, by omega⟩
  rw [Nat.add_assoc, List.drop_append, List.length_replicate, List.drop_replicate, show 27 - (27 + (k + 1)) = 0 by omega,
    Nat.add_sub_cancel_left, List.drop_succ_cons, List.drop_replicate, List.replicate_zero, List.nil_append, List.take_replicate]
  congr 1
  omega

/-! ## The table -/

/-- A well-formed table is finite, and symmetric (R5, R66). -/
theorem coeffWellFormed_iff (c : Vector F64 27) :
    coeffWellFormed c = true ↔ (∀ v ∈ c.toList, isFinite v = true) ∧ c.toList.reverse = c.toList := by
  rw [coeffWellFormed, Bool.and_eq_true, List.all_eq_true, beq_iff_eq]

theorem getD_mirrored {c : Vector F64 27} (hc : c.toList.reverse = c.toList) {j : Nat} (hj : j ≤ 26) :
    c.toList.getD (26 - j) posZero = c.toList.getD j posZero := by
  have hmirror : c.toList.reverse[j]? = c.toList[26 - j]? := by
    rw [List.getElem?_reverse (by simp; omega), Vector.length_toList]
  rw [List.getD_eq_getElem?_getD, List.getD_eq_getElem?_getD, ← hmirror, hc]

end Sys2Proof.Machine
end

section
/-! The statements on the filter. -/

open Sys2Proof Sys2Proof.Machine

/-- Settles O28: the fold's outputs, read at each index, and the history it ends with. -/
theorem firSumsTheWindowInOrder : Obligations.FirSumsTheWindowInOrder := fun s x =>
  ⟨_, _, exec_fir x s, firSeq_snd s.coeff s.hist x, length_firSeq s.coeff s.hist x, firSeq_getElem? s.coeff s.hist x⟩

/-- Settles O29: the fold over a concatenation is the second part's fold from where the first part's ended. -/
theorem firIsContinuousAcrossCalls : Obligations.FirIsContinuousAcrossCalls := by
  intro s a b
  refine ⟨_, _, _, _, exec_fir a s, exec_fir b _, ?_⟩
  rw [exec_fir, firSeq_append]

/-- Settles O30: up to output 26 the window holds the impulse and otherwise `+0.0`, and after it `+0.0` alone. -/
theorem firImpulseResponseIsTheTable : Obligations.FirImpulseResponseIsTheTable := by
  intro s n hhist hwf
  obtain ⟨hfin, hsymm⟩ := (coeffWellFormed_iff s.coeff).mp hwf
  refine ⟨_, _, exec_fir _ s, by simp, fun j hj => ?_, fun j hj => getD_mirrored hsymm hj⟩
  rw [firSeq_getElem? _ _ _ j (by simp; omega), hhist, Vector.toList_replicate]
  congr 1
  rcases Nat.lt_or_ge 26 j with hlate | hearly
  · rw [window_after_impulse hlate hj, orderedSum_replicate_posZero 27 hfin, decide_eq_true hlate, Bool.or_true, if_pos rfl]
  · have hk : 26 - j < s.coeff.toList.length := by simp; omega
    rw [window_impulse hearly hj, orderedSum_impulse hfin hk, decide_eq_false (by omega), Bool.or_false,
      List.getD_eq_getElem _ _ hk, withoutNegZero]

/-- Settles O31: in output `i + k`'s window the NaN stands at place `26 - k`. -/
theorem nanStaysInTheWindowFor27Outputs : Obligations.NanStaysInTheWindowFor27Outputs := by
  intro s x i hnan
  refine ⟨_, _, exec_fir x s, fun k v hk hv => ?_⟩
  have hlt : i + k < x.length := by
    obtain ⟨hlt, -⟩ := List.getElem?_eq_some_iff.mp hv
    rwa [length_firSeq] at hlt
  have hplace : (((s.hist.toList ++ x).drop (i + k + 1)).take 27)[26 - k]? = some (x.getD i posZero) := by
    rw [List.getElem?_take_of_lt (by omega), List.getElem?_drop, show i + k + 1 + (26 - k) = 27 + i by omega,
      List.getElem?_append_right (by simp), Vector.length_toList, Nat.add_sub_cancel_left,
      List.getD_eq_getElem x posZero (by omega), List.getElem?_eq_getElem]
  rw [firSeq_getElem? _ _ _ _ hlt, Option.some.injEq] at hv
  rw [← hv]
  exact isNaN_orderedSum hplace hnan (by simp)

end

section
/-! The Gain Stage's call and its products (R150 to R154). -/

namespace Sys2Proof.Machine

/-- `AMP` completes on every sequence, and leaves all but the reply (R150). -/
theorem exec_amp (x : List F64) (s : State) : exec (.amp x) s = .next { s with reply := .samples (ampSeq s.gain x) } := rfl

/-- Output `i` is the one rounded product of sample `i` with the gain (R151). -/
theorem ampSeq_getElem? (g : F64) (x : List F64) (i : Nat) (hi : i < x.length) :
    (ampSeq g x)[i]? = some (fmul (x.getD i posZero) g) := by
  rw [ampSeq, List.getElem?_map, List.getElem?_eq_getElem hi, Option.map_some, List.getD_eq_getElem x posZero hi]

end Sys2Proof.Machine
end

section
/-! The statement on the gain stage. -/

open Sys2Proof Sys2Proof.Machine

/-- Settles O32: the completed call replies with the sequence of products, read at each index. -/
theorem ampMultipliesByTheGain : Obligations.AmpMultipliesByTheGain := fun s x =>
  ⟨_, exec_amp x s, length_ampSeq s.gain x, ampSeq_getElem? s.gain x⟩

end

section
/-! The channel-0 stream of a block, and what `PROC` does by case (R52, R160 to R164). -/

namespace Sys2Proof.Machine

/-! ## The channel-0 stream -/

/-- The channel-0 stream reads the samples at offsets `4i` alone (R52, R103). -/
theorem channel0_eq_map {bs : RawBlock} (h : bs.length % 4 = 0) :
    channel0 bs = (List.range (bs.length / 4)).map fun i => dec1 (sext16 (sampleAt bs (4 * i))) := by
  have hlen : (channel0 bs).length = bs.length / 4 := length_channel0 (by omega)
  refine List.ext_getElem (by simp [hlen]) fun i hi _ => Option.some.inj ?_
  rw [← List.getElem?_eq_getElem, channel0_getElem? (by omega), List.getElem_map, List.getElem_range, sext16_eq]

theorem channel0_congr {b b' : RawBlock} (h : b.length % 4 = 0) (hlen : b.length = b'.length)
    (hbytes : ∀ i : Nat, i % 4 < 2 → b[i]? = b'[i]?) : channel0 b = channel0 b' := by
  rw [channel0_eq_map h, channel0_eq_map (hlen ▸ h), hlen]
  refine List.map_congr_left fun i _ => ?_
  simp only [sampleAt, List.getD_eq_getElem?_getD, hbytes (4 * i) (by omega), hbytes (4 * i + 1) (by omega)]

/-! ## `PROC`, case by case -/

theorem accepting_iff (s : State) : s.accepting = true ↔ procRefusal s = none := by
  rw [procRefusal_eq_none_iff]
  simp [State.accepting]

/-- Where `PROC` is not accepted it is refused before its block is looked at (R161). -/
theorem exec_proc_of_refusal {s : State} {r : Refusal} (bs : RawBlock) (hr : procRefusal s = some r) :
    exec (.proc bs) s = .refused r := by
  rw [exec, execProc, hr]

/-- An accepted block that is no whole number of frames takes the exception (R164). -/
theorem exec_proc_of_malformed {s : State} {bs : RawBlock} (ha : s.accepting = true) (hl : bs.length % 4 ≠ 0) :
    exec (.proc bs) s = .next (faultStream (acceptBlock s bs) bs.length) := by
  rw [exec, execProc, (accepting_iff s).mp ha]
  simp only [(malformedLen_eq_true_iff _).mpr hl, if_true]

/-- An accepted block of whole frames is refused when an element to encode is NaN (R113, R160). -/
theorem exec_proc_of_nan {s : State} {bs : RawBlock} (ha : s.accepting = true) (hl : bs.length % 4 = 0)
    (hz : encSamples (amplified s (channel0 bs)) (amplified s (channel0 bs)) = none) :
    exec (.proc bs) s = .refused .encodeNaN := by
  rcases execProc_cases bs s with ⟨r, hr, -⟩ | ⟨-, hne, -⟩ | ⟨-, -, -, he⟩ | ⟨zs, out, -, -, hsome, -⟩
  · cases ((accepting_iff s).mp ha).symm.trans hr
  · exact absurd hl hne
  · exact he
  · cases hz.symm.trans hsome

/-! ## `ENC` of one stream into both channels -/

theorem encSamples_of_exec_enc_nan {x : List F64} {s : State} (h : exec (.enc x x) s = .refused .encodeNaN) :
    encSamples x x = none := by
  rcases execEnc_eq x x s with ⟨hne, -⟩ | ⟨-, hz, -⟩ | ⟨zs, out, -, -, -, -, -, -, he⟩
  · exact absurd rfl hne
  · exact hz
  · cases h.symm.trans he

theorem encodeBlock_of_exec_enc {x : List F64} {s t : State} (h : exec (.enc x x) s = .next t) :
    ∃ zs, encSamples x x = some zs ∧ encodeBlock zs = some t.out := by
  rcases execEnc_eq x x s with ⟨hne, -⟩ | ⟨-, -, he⟩ | ⟨zs, out, -, hz, hout, -, -, -, he⟩
  · exact absurd rfl hne
  · cases h.symm.trans he
  · cases h.symm.trans he
    exact ⟨zs, hz, hout⟩

/-! ## The finished block -/

/-- What a finished block does to the state does not depend on `IN`, which it leaves alone. -/
theorem finishBlock_setInp (s : State) (b out : Block) : finishBlock (s.setInp b) out = (finishBlock s out).setInp b := by
  rcases hready : s.sinkReady with _ | _
  · rw [finishBlock_waits (s := s) out hready, finishBlock_waits (s := s.setInp b) out hready]
    rfl
  · rw [finishBlock_ready (s := s) out hready, finishBlock_ready (s := s.setInp b) out hready]
    rfl

/-- What an accepted block leaves with a sink that takes it, field by field (R162, R163, R173). -/
theorem finishBlock_accepted_eq {s : State} (bs : RawBlock) (x : List F64) (out : Block) (hready : s.sinkReady = true)
    (hidle : s.seq = .idle) :
    finishBlock (afterStages (acceptBlock s bs) x) out = { s with
      prev := (qdmSeq s.prev x).2, hist := (firSeq s.coeff s.hist (qdmSeq s.prev x).1).2, inp := Block.ofBytes bs, out := out,
      sink := s.sink ++ [out.bytes], offered := none, reply := .none } := by
  rw [finishBlock_ready (s := afterStages (acceptBlock s bs) x) out hready, hidle]
  rfl

end Sys2Proof.Machine
end

section
/-! `PROC` of blocks one after the other (R167). -/

namespace Sys2Proof.Machine

theorem procAll_cons_next {b : RawBlock} {blocks : List RawBlock} {s t : State} (h : procAll (b :: blocks) s = .next t) :
    ∃ u, exec (.proc b) s = .next u ∧ procAll blocks u = .next t := by
  rw [procAll] at h
  split at h
  · exact ⟨_, by assumption, h⟩
  · cases h
  · cases h

/-- Blocks that complete one after the other have, put together, an encoding; the outputs are its bytes, cut where the blocks were, and
`PREV` and `H` end as the stages over the whole stream leave them (R165, R167). -/
theorem procAll_next {blocks : List RawBlock} : ∀ {s t : State}, s.accepting = true → s.sinkReady = true →
    (∀ b ∈ blocks, b.length % 4 = 0) → procAll blocks s = .next t →
    ∃ (zs : List (Int × Int)) (outs : List RawBlock),
      encSamples (amplified s (channel0 blocks.flatten)) (amplified s (channel0 blocks.flatten)) = some zs ∧
      t.sink = s.sink ++ outs ∧ outs.length = blocks.length ∧ outs.flatten = zs.flatMap outFrame ∧
      t.prev = (afterStages s (channel0 blocks.flatten)).prev ∧ t.hist = (afterStages s (channel0 blocks.flatten)).hist := by
  induction blocks with
  | nil =>
    intro s t _ _ _ h
    cases h
    exact ⟨[], [], rfl, (List.append_nil _).symm, rfl, rfl, rfl, rfl⟩
  | cons b blocks ih =>
    intro s t ha hready hwhole h
    obtain ⟨hb, hrest⟩ := List.forall_mem_cons.mp hwhole
    obtain ⟨u, he, hu⟩ := procAll_cons_next h
    obtain ⟨-, -, hidle⟩ := of_accepting ha
    obtain ⟨zs, out, hz, -, -, -, hbytes, -, rfl⟩ := proc_of_next ha hb he
    rw [finishBlock_accepted_eq b _ out hready hidle] at hu
    obtain ⟨zs', outs, hz', hsink, hlen, hflat, hprev, hhist⟩ := ih (by exact ha) (by exact hready) hrest hu
    have hcat : channel0 (b :: blocks).flatten = channel0 b ++ channel0 blocks.flatten :=
      channel0_append (n := b.length / 4) _ (by omega)
    refine ⟨zs ++ zs', out.bytes :: outs, ?_, ?_, ?_, ?_, ?_, ?_⟩
    · have hz'' : encSamples (amplified (afterStages s (channel0 b)) (channel0 blocks.flatten))
          (amplified (afterStages s (channel0 b)) (channel0 blocks.flatten)) = some zs' := hz'
      rw [hcat, amplified_append, encSamples_append _ _ rfl, hz, hz'']
    · rw [hsink, List.append_assoc, List.singleton_append]
    · rw [List.length_cons, List.length_cons, hlen]
    · rw [List.flatten_cons, hbytes, hflat, List.flatMap_append]
    · rw [hcat, afterStages_append, hprev]
      rfl
    · rw [hcat, afterStages_append, hhist]
      rfl

end Sys2Proof.Machine
end

section
/-! Frame by frame or stage by stage (R165). -/

namespace Sys2Proof.Machine

/-- The kernels run for each sample in turn are the folds of the stages, one after the other (R165). -/
theorem streamed_eq (c : Vector F64 27) (g : F64) : ∀ (p : F64) (h : Vector F64 27) (x : List F64),
    streamed c g p h x =
      (ampSeq g (firSeq c h (qdmSeq p x).1).1, (qdmSeq p x).2, (firSeq c h (qdmSeq p x).1).2)
  | _, _, [] => rfl
  | p, h, x :: xs => by
    rw [streamed, streamed_eq c g x (shiftIn h (fmul p x)) xs]
    rfl

end Sys2Proof.Machine
end

section
/-! A turn of the loop (R170). -/

namespace Sys2Proof.Machine

/-- With no reset requested, a loop in progress makes its turn after the hand-over of a waiting block (log entry 11). -/
theorem step_eq_loopStep {s : State} (hw : resetWanted s = false) (hrun : s.running = true) : step s = loopStep (takeOffered s) := by
  obtain ⟨-, hrunning⟩ := takeOffered_requests s
  rw [step, driverStep, hw, hrunning, hrun, if_neg Bool.false_ne_true, if_pos rfl]

theorem loopStep_busy {s : State} (h : s.seq = .busy) : loopStep s = .next s := by rw [loopStep, if_pos h]

/-- Between blocks an asserted stop is honoured before the source is looked at (R193 (b)). -/
theorem loopStep_stop {s : State} (hseq : s.seq ≠ .busy) (hstop : s.stop = true) : loopStep s = .next (honourStop s) := by
  rw [loopStep, if_neg hseq, if_pos hstop]

/-- Between blocks with no stop the loop runs `PROC` on the next block of the source (R170). -/
theorem loopStep_source {s : State} {b : RawBlock} {rest : List RawBlock} (hseq : s.seq ≠ .busy) (hstop : s.stop = false)
    (hsource : s.source = b :: rest) : loopStep s = loopAnswer s rest (exec (.proc b) s) := by
  rw [loopStep, if_neg hseq, hstop, if_neg Bool.false_ne_true, hsource]

theorem takeOffered_of_some {s : State} {b : RawBlock} (hoff : s.offered = some b) (hready : s.sinkReady = true) :
    takeOffered s = deliverBlock s b := by
  rw [takeOffered, hoff]
  exact if_pos hready

end Sys2Proof.Machine
end

section
/-! Silence (R139, R174). -/

namespace Sys2Proof.Machine

theorem sampleAt_of_silent {bs : RawBlock} (h : silent bs) (i : Nat) : sampleAt bs (4 * i) = 0#16 := by
  rw [sampleAt, h (4 * i) (by omega), h (4 * i + 1) (by omega)]
  rfl

theorem dec1_zero : dec1 (sext16 0#16) = posZero := by
  obtain ⟨hfin, hmag, hsign⟩ := dec1_spec 0 (by decide)
  rw [Int.natAbs_zero, Nat.zero_mul] at hmag
  rw [show sext16 0#16 = 0 by decide]
  exact eq_of_fields hfin (by decide) hmag hsign

theorem channel0_of_silent {bs : RawBlock} (hl : bs.length % 4 = 0) (h : silent bs) :
    channel0 bs = List.replicate (bs.length / 4) posZero := by
  simp [channel0_eq_map hl, sampleAt_of_silent h, dec1_zero, List.map_const']

theorem fmul_posZero_posZero : fmul posZero posZero = posZero := by
  rw [fmul_posZero_of_isFinite (by decide)]
  rfl

theorem qdmSeq_replicate_posZero : ∀ n : Nat, qdmSeq posZero (List.replicate n posZero) = (List.replicate n posZero, posZero)
  | 0 => rfl
  | n + 1 => by rw [List.replicate_succ, qdmSeq_cons, qdmSeq_replicate_posZero n, fmul_posZero_posZero]

theorem shiftIn_replicate_posZero : shiftIn (Vector.replicate 27 posZero) posZero = Vector.replicate 27 posZero := rfl

theorem dot27_replicate_posZero {c : Vector F64 27} (hc : ∀ v ∈ c.toList, isFinite v = true) :
    dot27 (Vector.replicate 27 posZero) c = posZero := by
  rw [dot27, ← orderedSum_eq_dotFrom, Vector.toList_replicate, orderedSum_replicate_posZero 27 hc]

/-- A zero window and zero samples give `+0.0` for every finite table (R139 (b)). -/
theorem firSeq_replicate_posZero {c : Vector F64 27} (hc : ∀ v ∈ c.toList, isFinite v = true) : ∀ n : Nat,
    (firSeq c (Vector.replicate 27 posZero) (List.replicate n posZero)).1 = List.replicate n posZero
  | 0 => rfl
  | n + 1 => by
    rw [List.replicate_succ, firSeq_cons, shiftIn_replicate_posZero, dot27_replicate_posZero hc, firSeq_replicate_posZero hc n]

/-- A zero of either sign is encoded as the bias alone (R174). -/
theorem enc_of_isZero {v : F64} (h : isZero v = true) : encL v = some 0 ∧ encR v = some 32767 := by
  obtain ⟨hl, hr⟩ := enc_of_isFinite (isFinite_of_isZero h)
  rw [hl, hr, scaledTrunc, (scaledInt_eq_zero_iff v).mpr h, Int.zero_mul, Int.zero_tdiv]
  exact ⟨rfl, rfl⟩

theorem encSamples_replicate {v : F64} {zl zr : Int} (hl : encL v = some zl) (hr : encR v = some zr) : ∀ n : Nat,
    encSamples (List.replicate n v) (List.replicate n v) = some (List.replicate n (zl, zr))
  | 0 => rfl
  | n + 1 => by
    rw [List.replicate_succ, encSamples_cons, hl, hr, encSamples_replicate hl hr n]
    rfl

/-- The amplified stream of a silent channel 0 from a zero state: zeros, of the gain's sign (R174). -/
theorem amplified_silence {s : State} (n : Nat) (hprev : s.prev = posZero) (hhist : s.hist = Vector.replicate 27 posZero)
    (hc : ∀ v ∈ s.coeff.toList, isFinite v = true) :
    amplified s (List.replicate n posZero) = List.replicate n (fmul posZero s.gain) := by
  rw [amplified, hprev, hhist, qdmSeq_replicate_posZero, firSeq_replicate_posZero hc, ampSeq, List.map_replicate]

end Sys2Proof.Machine
end

section
/-! Bounds on the values of a stream (R166). -/

namespace Sys2Proof.Machine

/-- A finite value of magnitude at most `m * 2^k`. -/
def AtMost (m k : Nat) (x : F64) : Prop := isFinite x = true ∧ magnitude x ≤ m * 2 ^ (1074 + k)

theorem boundedBy_iff (k : Nat) (x : F64) : boundedBy k x = true ↔ AtMost 1 k x := by
  rw [boundedBy, Bool.and_eq_true, decide_eq_true_iff, AtMost, Nat.one_mul]

/-- `32 * 2^1018` is below `2^1024`: the bounds used here stay below overflow. -/
theorem bound_lt_inf {m k : Nat} (hm : m ≤ 2 ^ 5) (hk : k ≤ 1018) : m * 2 ^ (1074 + k) < 2 ^ 2098 := by
  calc m * 2 ^ (1074 + k) ≤ 2 ^ 5 * 2 ^ (1074 + k) := Nat.mul_le_mul_right _ hm
    _ = 2 ^ (5 + (1074 + k)) := (pow_add 2 5 (1074 + k)).symm
    _ < 2 ^ 2098 := pow_lt_inf (by omega)

/-- A rounded magnitude keeps a bound the exact one has, for the bound is representable (R7). -/
theorem atMost_roundPack {num den m k : Nat} (neg : Bool) (hd : 0 < den) (hm : m ≤ 2 ^ 5) (hk : k ≤ 1018)
    (h : num ≤ m * 2 ^ (1074 + k) * den) : AtMost m k (pack neg (roundLow num den)) :=
  magnitude_roundPack_le neg hd (hm.trans_lt (by decide)) h (bound_lt_inf hm hk)

theorem atMost_fmul {a b : F64} {m j k l : Nat} (ha : AtMost m j a) (hb : AtMost 1 k b) (hl : j + k = l) (hm : m ≤ 2 ^ 5)
    (hle : l ≤ 1018) : AtMost m l (fmul a b) := by
  obtain ⟨hfa, hma⟩ := ha
  obtain ⟨hfb, hmb⟩ := hb
  rw [fmul_finite hfa hfb]
  refine atMost_roundPack _ (Nat.two_pow_pos _) hm hle ?_
  calc magnitude a * magnitude b ≤ m * 2 ^ (1074 + j) * (1 * 2 ^ (1074 + k)) := Nat.mul_le_mul hma hmb
    _ = m * (2 ^ (1074 + j) * 2 ^ (1074 + k)) := by rw [Nat.one_mul, Nat.mul_assoc]
    _ = m * (2 ^ (1074 + l) * 2 ^ 1074) := by rw [← pow_add, ← pow_add, show 1074 + j + (1074 + k) = 1074 + l + 1074 by omega]
    _ = m * 2 ^ (1074 + l) * 2 ^ 1074 := (Nat.mul_assoc _ _ _).symm

theorem atMost_fadd {a b : F64} {m n k : Nat} (ha : AtMost m k a) (hb : AtMost n k b) (hm : m + n ≤ 2 ^ 5) (hk : k ≤ 1018) :
    AtMost (m + n) k (fadd a b) := by
  obtain ⟨hfa, hma⟩ := ha
  obtain ⟨hfb, hmb⟩ := hb
  rw [fadd_finite hfa hfb, packSum_eq_roundPack]
  refine atMost_roundPack _ Nat.one_pos hm hk ?_
  calc (scaledInt a + scaledInt b).natAbs ≤ (scaledInt a).natAbs + (scaledInt b).natAbs := Int.natAbs_add_le _ _
    _ = magnitude a + magnitude b := by rw [natAbs_scaledInt, natAbs_scaledInt]
    _ ≤ m * 2 ^ (1074 + k) + n * 2 ^ (1074 + k) := Nat.add_le_add hma hmb
    _ = (m + n) * 2 ^ (1074 + k) * 1 := by rw [Nat.mul_one, Nat.add_mul]

/-- A decoded sample lies in `[-1, 1]` (R102). -/
theorem atMost_dec1 (v : Sample) : AtMost 1 0 (dec1 (sext16 v)) := by
  obtain ⟨hfin, hmag, -⟩ := dec1_spec v.toInt (natAbs_toInt_le v)
  rw [sext16_eq]
  refine ⟨hfin, ?_⟩
  calc magnitude (dec1 v.toInt) ≤ 2 ^ 15 * 2 ^ 1059 := hmag.trans_le (Nat.mul_le_mul_right _ (natAbs_toInt_le v))
    _ = 1 * 2 ^ (1074 + 0) := by rw [← pow_add, Nat.one_mul]

theorem atMost_channel0 (bs : RawBlock) : ∀ v ∈ channel0 bs, AtMost 1 0 v := by
  intro v hv
  obtain ⟨f, -, rfl⟩ := List.mem_map.mp hv
  exact atMost_dec1 f.1

/-- Samples in `[-1, 1]` have demodulator outputs in `[-1, 1]`, and leave such a `PREV` (R166). -/
theorem atMost_qdmSeq : ∀ {p : F64} {x : List F64}, AtMost 1 0 p → (∀ v ∈ x, AtMost 1 0 v) →
    (∀ v ∈ (qdmSeq p x).1, AtMost 1 0 v) ∧ AtMost 1 0 (qdmSeq p x).2
  | _, [], hp, _ => ⟨nofun, hp⟩
  | _, _ :: _, hp, hx => by
    obtain ⟨hfirst, hrest⟩ := List.forall_mem_cons.mp hx
    obtain ⟨hout, hlast⟩ := atMost_qdmSeq hfirst hrest
    exact ⟨List.forall_mem_cons.mpr ⟨atMost_fmul hp hfirst rfl (by decide) (by decide), hout⟩, hlast⟩

/-- Each product adds at most `2^1000` to the bound of the accumulator, and no partial sum overflows (R166). -/
theorem atMost_dotFrom : ∀ {ps : List (F64 × F64)} {acc : F64} {m : Nat}, AtMost m 1000 acc →
    (∀ p ∈ ps, AtMost 1 0 p.1 ∧ AtMost 1 1000 p.2) → m + ps.length ≤ 2 ^ 5 → AtMost (m + ps.length) 1000 (dotFrom acc ps)
  | [], _, _, hacc, _, _ => hacc
  | p :: ps, acc, m, hacc, hps, hlen => by
    obtain ⟨⟨hx, hc⟩, hrest⟩ := List.forall_mem_cons.mp hps
    rw [List.length_cons] at hlen ⊢
    have hprod : AtMost 1 1000 (fmul p.1 p.2) := atMost_fmul hx hc rfl (by decide) (by decide)
    have hsum : AtMost (m + 1) 1000 (fadd acc (fmul p.1 p.2)) := atMost_fadd hacc hprod (by omega) (by decide)
    rw [dotFrom, show m + (ps.length + 1) = m + 1 + ps.length by omega]
    exact atMost_dotFrom hsum hrest (by omega)

theorem atMost_posZero (k : Nat) : AtMost 0 k posZero :=
  ⟨by decide, (show magnitude posZero = 0 by decide).trans_le (Nat.zero_le _)⟩

theorem atMost_dot27 {h c : Vector F64 27} (hh : ∀ v ∈ h.toList, AtMost 1 0 v) (hc : ∀ v ∈ c.toList, AtMost 1 1000 v) :
    AtMost 27 1000 (dot27 h c) := by
  have hlen : (h.toList.zip c.toList).length = 27 := by simp
  have hsum := atMost_dotFrom (ps := h.toList.zip c.toList) (atMost_posZero 1000)
    (fun p hp => ⟨hh _ (List.of_mem_zip hp).1, hc _ (List.of_mem_zip hp).2⟩) (by rw [hlen]; decide)
  rwa [hlen] at hsum

theorem atMost_shiftIn {h : Vector F64 27} {x : F64} (hh : ∀ v ∈ h.toList, AtMost 1 0 v) (hx : AtMost 1 0 x) :
    ∀ v ∈ (shiftIn h x).toList, AtMost 1 0 v := by
  rw [toList_shiftIn]
  exact List.forall_mem_append.mpr ⟨fun v hv => hh v (List.mem_of_mem_tail hv), List.forall_mem_singleton.mpr hx⟩

/-- Samples in `[-1, 1]` have filter outputs of magnitude at most `27 * 2^1000`, and leave such an `H` (R166). -/
theorem atMost_firSeq {c : Vector F64 27} (hc : ∀ v ∈ c.toList, AtMost 1 1000 v) : ∀ {h : Vector F64 27} {x : List F64},
    (∀ v ∈ h.toList, AtMost 1 0 v) → (∀ v ∈ x, AtMost 1 0 v) →
    (∀ v ∈ (firSeq c h x).1, AtMost 27 1000 v) ∧ ∀ v ∈ (firSeq c h x).2.toList, AtMost 1 0 v
  | _, [], hh, _ => ⟨nofun, hh⟩
  | _, _ :: _, hh, hx => by
    obtain ⟨hfirst, hrest⟩ := List.forall_mem_cons.mp hx
    have hshift := atMost_shiftIn hh hfirst
    obtain ⟨hout, hlast⟩ := atMost_firSeq hc hshift hrest
    exact ⟨List.forall_mem_cons.mpr ⟨atMost_dot27 hshift hc, hout⟩, hlast⟩

theorem parametersBounded_iff (s : State) : s.parametersBounded = true ↔
    coeffWellFormed s.coeff = true ∧ (∀ v ∈ s.coeff.toList, AtMost 1 1000 v) ∧ AtMost 1 18 s.gain := by
  simp only [State.parametersBounded, Bool.and_eq_true, List.all_eq_true, boundedBy_iff, and_assoc]

theorem dataBounded_iff (s : State) : s.dataBounded = true ↔ AtMost 1 0 s.prev ∧ ∀ v ∈ s.hist.toList, AtMost 1 0 v := by
  simp only [State.dataBounded, Bool.and_eq_true, List.all_eq_true, boundedBy_iff]

/-- Within the bounds the stages over a stream in `[-1, 1]` amplify to finite values, and keep the data registers' bounds (R166). -/
theorem stages_bounded {s : State} {x : List F64} (hp : s.parametersBounded = true) (hdata : s.dataBounded = true)
    (hx : ∀ v ∈ x, AtMost 1 0 v) :
    (∀ v ∈ amplified s x, isFinite v = true) ∧ (afterStages s x).dataBounded = true := by
  obtain ⟨-, hcoeff, hgain⟩ := (parametersBounded_iff s).mp hp
  obtain ⟨hprev, hhist⟩ := (dataBounded_iff s).mp hdata
  obtain ⟨hd, hlast⟩ := atMost_qdmSeq hprev hx
  obtain ⟨hf, hwindow⟩ := atMost_firSeq hcoeff hhist hd
  refine ⟨fun v hv => ?_, (dataBounded_iff _).mpr ⟨hlast, hwindow⟩⟩
  obtain ⟨y, hy, rfl⟩ := List.mem_map.mp hv
  exact (atMost_fmul (hf y hy) hgain rfl (by decide) (by decide)).1

/-- Finite values have an encoding (R113). -/
theorem exists_encSamples {x : List F64} (h : ∀ v ∈ x, isFinite v = true) : ∃ zs, encSamples x x = some zs := by
  have hnan : x.any isNaN = false := List.any_eq_false.mpr fun v hv => by simp [((isFinite_iff v).mp (h v hv)).1]
  exact Option.isSome_iff_exists.mp ((encSamples_isSome_iff rfl).mpr ⟨hnan, hnan⟩)

end Sys2Proof.Machine
end

section
/-! The statements on the pipeline and its driver. -/

open Sys2Proof Sys2Proof.Machine

/-- Settles O10: the fields `RST` writes; where `FAULT` is 1 or `SEQ` is STOPPED every other operation keeps both. -/
theorem rstRestoresTheResetValues : Obligations.RstRestoresTheResetValues := by
  intro s
  refine ⟨⟨_, exec_rst_eq s, rfl⟩, fun i t he hleft => ?_⟩
  by_contra hi
  rcases hleft with ⟨hs, ht⟩ | ⟨hs, ht⟩
  · obtain ⟨hfault, -⟩ := exec_keeps_status hi (.inl hs) he
    cases ht.symm.trans (hfault.trans hs)
  · obtain ⟨-, hseq⟩ := exec_keeps_status hi (.inr (by simp [hs])) he
    exact ht (hseq.trans hs)

/-- Settles O22: both samples are clamps of the one truncated product, an infinite one at the clamp's end. -/
theorem rightChannelFollowsLeft : Obligations.RightChannelFollowsLeft := by
  intro v q zl zr hq hl hr
  rw [encL, hq, Option.map_some, Option.some.injEq] at hl
  rw [encR, hq, Option.map_some, Option.some.injEq] at hr
  subst hl hr
  cases q with
  | negInf => simp [sat16, extAdd]
  | posInf => simp [sat16, extAdd]
  | int z =>
    rw [extAdd, sat16_int, sat16_int, Ne, ExtInt.int.injEq]
    unfold clamp16
    omega

/-- Settles O36: `ENC`'s outcome is the encoding of the amplified stream, and so is `PROC`'s. -/
theorem procIsTheStagesInOrder : Obligations.ProcIsTheStagesInOrder := by
  intro s bs ha hready hl
  refine ⟨channel0 bs, channel1 bs, _, _, amplified s (channel0 bs), _, _, _, _, _, _, exec_dec_of_whole s hl, rfl,
    exec_qdm _ _, rfl, rfl, exec_fir _ _, rfl, rfl, exec_amp _ _, rfl, fun hnan => ?_, fun t5 he => ?_⟩
  · exact exec_proc_of_nan ha hl (encSamples_of_exec_enc_nan hnan)
  · obtain ⟨zs, hz, hout⟩ := encodeBlock_of_exec_enc he
    obtain ⟨out, hout', -, -, -, hproc⟩ := proc_next_of_encSamples ha hl hz
    obtain rfl : out = t5.out := Option.some.inj (hout'.symm.trans hout)
    obtain ⟨-, -, hidle⟩ := of_accepting ha
    rw [hproc, finishBlock_accepted_eq bs _ t5.out hready hidle]
    rfl

/-- Settles O38: the folds of the demodulator and the filter over the decoded stream. -/
theorem procLeavesTheCarriedState : Obligations.ProcLeavesTheCarriedState := by
  intro s t bs ha hl he
  obtain ⟨-, hfault, hidle⟩ := of_accepting ha
  obtain ⟨zs, out, -, -, hwf, hlen, -, -, rfl⟩ := proc_of_next ha hl he
  obtain ⟨hprev, hhist, hout, hfault', hcoeff, hgain, -⟩ :=
    finishBlock_fields (afterStages (acceptBlock s bs) (channel0 bs)) out
  have hs0 : (channel0 bs).length = bs.length / 4 := length_channel0 (by omega)
  rw [hprev, hhist, hout, hfault', hcoeff, hgain]
  refine ⟨channel0 bs, (qdmSeq s.prev (channel0 bs)).1, hs0, (length_qdmSeq _ _).trans hs0, fun i hi => ?_, fun i hi => ?_,
    qdmSeq_snd _ _, firSeq_snd _ _ _, hlen, hwf, hfault, fun hready => ?_, rfl, rfl⟩
  · rw [channel0_getElem? (by omega), sext16_eq]
  · exact qdmSeq_getElem? s.prev (channel0 bs) i (by omega)
  · rw [finishBlock_accepted_eq bs _ out hready hidle]
    exact hidle

/-- Settles O39: the encoding of the whole stream exists and its bytes are the single outputs put together. -/
theorem streamIsContinuousAcrossBlocks : Obligations.StreamIsContinuousAcrossBlocks := by
  intro s t blocks ha hready hwhole h
  obtain ⟨zs, outs, hz, hsink, hlen, hflat, hprev, hhist⟩ := procAll_next ha hready hwhole h
  have hl : blocks.flatten.length % 4 = 0 := by
    rw [List.length_flatten]
    exact Nat.mod_eq_zero_of_dvd (List.dvd_sum (by simpa [Nat.dvd_iff_mod_eq_zero] using hwhole))
  obtain ⟨out, -, -, -, hbytes, he⟩ := proc_next_of_encSamples ha hl hz
  obtain ⟨-, -, hidle⟩ := of_accepting ha
  rw [finishBlock_accepted_eq _ _ out hready hidle] at he
  refine ⟨_, outs, he, hsink, hlen, ?_, hprev.symm, hhist.symm⟩
  rw [hflat, hbytes]

/-- Settles O40: `PROC` looks at its block's length and its channel-0 stream only; the rest of the block is in `IN` alone. -/
theorem channelOneIsIgnored : Obligations.ChannelOneIsIgnored := by
  intro s b b' hlen hbytes
  rw [show exec (.proc b) s = execProc b s from rfl]
  rcases execProc_cases b s with ⟨r, hr, he⟩ | ⟨hr, hl, he⟩ | ⟨hr, hl, hz, he⟩ |
    ⟨zs, out, hr, hl, hz, hout, -, -, -, he⟩ <;> rw [he]
  · exact exec_proc_of_refusal b' hr
  · rw [exec_proc_of_malformed ((accepting_iff s).mpr hr) (hlen ▸ hl), hlen]
    rfl
  · rw [channel0_congr hl hlen hbytes] at hz
    exact exec_proc_of_nan ((accepting_iff s).mpr hr) (hlen ▸ hl) hz
  · rw [channel0_congr hl hlen hbytes] at hz ⊢
    obtain ⟨out', hout', -, -, -, he'⟩ := proc_next_of_encSamples ((accepting_iff s).mpr hr) (hlen ▸ hl) hz
    cases hout.symm.trans hout'
    rw [he']
    exact congrArg _ (finishBlock_setInp (afterStages (acceptBlock s b) (channel0 b')) (Block.ofBytes b') out)

/-- Settles O41: the amplified values stay below overflow, so they have an encoding, and the registers keep their bounds. -/
theorem procCompletesWithinTheBounds : Obligations.ProcCompletesWithinTheBounds := by
  intro s bs ha hl hp hdata
  obtain ⟨hfin, hdata'⟩ := stages_bounded hp hdata (atMost_channel0 bs)
  obtain ⟨zs, hz⟩ := exists_encSamples hfin
  obtain ⟨out, -, -, -, -, he⟩ := proc_next_of_encSamples ha hl hz
  obtain ⟨hprev, hhist, -, -, hcoeff, hgain, -⟩ := finishBlock_fields (afterStages (acceptBlock s bs) (channel0 bs)) out
  refine ⟨_, he, ?_, ?_, ?_⟩
  · rw [State.parametersBounded, hcoeff, hgain]
    exact hp
  · rw [State.dataBounded, hprev, hhist]
    exact hdata'
  · rw [← channel0_eq_map hl]
    exact List.all_eq_true.mpr hfin

/-- Settles O42: the fold of the three kernels is the three folds. -/
theorem frameStreamingAgreesWithStaging : Obligations.FrameStreamingAgreesWithStaging := fun s s0 =>
  streamed_eq s.coeff s.gain s.prev s.hist s0

/-- Settles O44: every amplified value is a zero, of the gain's sign, and a zero of either sign is encoded as the bias. -/
theorem silenceEncodesToTheBias : Obligations.SilenceEncodesToTheBias := by
  intro s bs ha hl hsilent hprev hhist hcoeff hgain
  obtain ⟨hfin, -⟩ := (coeffWellFormed_iff s.coeff).mp hcoeff
  obtain ⟨hleft, hright⟩ := enc_of_isZero (isZero_fmul_posZero hgain)
  have hz := encSamples_replicate hleft hright (bs.length / 4)
  rw [← amplified_silence _ hprev hhist hfin, ← channel0_of_silent hl hsilent] at hz
  obtain ⟨out, -, -, -, hbytes, he⟩ := proc_next_of_encSamples ha hl hz
  obtain ⟨-, -, hout, -⟩ := finishBlock_fields (afterStages (acceptBlock s bs) (channel0 bs)) out
  refine ⟨_, he, ?_⟩
  rw [hout, hbytes, List.flatMap, List.map_replicate]
  rfl

/-- Settles O13: after `RST` no block is offered, so none is handed over. -/
theorem rstAbandonsTheBlockInProgress : Obligations.RstAbandonsTheBlockInProgress := fun s _ =>
  ⟨_, exec_rst_eq s, rfl, rfl, takeOffered_of_none rfl, rfl, rfl, rfl, rfl⟩

/-- Settles O33: the refusal tests, `FAULT` before `SEQ`, come before the block. -/
theorem procIsRefusedWhenNotAccepting : Obligations.ProcIsRefusedWhenNotAccepting := by
  intro s bs
  refine ⟨fun hfault => exec_proc_of_refusal bs ?_, fun hfault hseq => exec_proc_of_refusal bs ?_,
    fun hfault hseq => exec_proc_of_refusal bs ?_⟩
  · simp [procRefusal, hfault]
  · simp [procRefusal, hfault, hseq]
  · simp [procRefusal, hfault, hseq]

/-- Settles O34: the exception's effect, and the refusal test that meets it in every later `PROC`. -/
theorem procTakesMalformedBlock : Obligations.ProcTakesMalformedBlock := fun _ _ ha hl =>
  ⟨_, exec_proc_of_malformed ha hl, rfl, fun cs => exec_proc_of_refusal cs rfl⟩

/-- Settles O45: with no block waiting the turn looks at the stop level before the source. -/
theorem stopWinsBetweenBlocks : Obligations.StopWinsBetweenBlocks := by
  intro s hw hrun hstop hidle hoff
  rw [step_eq_loopStep hw hrun, takeOffered_of_none hoff, loopStep_stop (by simp [hidle]) hstop]
  rfl

/-- Settles O46: a waiting block keeps the turn from the stop level; the hand-over leaves `SEQ` IDLE, where the stop is honoured. -/
theorem stopIsNotSeenInsideABlock : Obligations.StopIsNotSeenInsideABlock := by
  intro s b hw hrun hstop hbusy hoff
  rw [step_eq_loopStep hw hrun]
  refine ⟨fun hwait => ?_, fun hready => ?_⟩
  · rw [takeOffered_of_waits (.inr hwait), loopStep_busy hbusy]
  · rw [takeOffered_of_some hoff hready, loopStep_stop (s := deliverBlock s b) SeqPos.noConfusion hstop]
    rfl

/-- Settles O47: the turn is `PROC` of the block, which is then taken from the source. -/
theorem loopProcessesTheNextBlock : Obligations.LoopProcessesTheNextBlock := by
  intro s t b rest hw hrun hstop hidle hoff hsource he
  rw [step_eq_loopStep hw hrun, takeOffered_of_none hoff, loopStep_source (by simp [hidle]) hstop hsource, he]
  rfl

end

section
/-! Steps that a reset request takes over, and steps that wait (R169, R170, R193 (c), R204). -/

namespace Sys2Proof.Machine

/-- The reset request line is served before anything else is looked at (R169, R193 (c), R196). -/
theorem step_of_resetReq {s : State} (hline : s.resetReq = true) : step s = exec .rst (s.setResetReq false) := by
  have hw : resetWanted s = true := (resetWanted_iff s).mpr (.inl hline)
  rw [step, driverStep, hw, if_pos rfl, takeReset, hline, if_pos rfl]

/-- With no reset requested and no loop in progress, the requests are looked at after the hand-over of a waiting block (log entry 11). -/
theorem step_eq_requestStep_of_not_resetWanted {s : State} (hw : resetWanted s = false) (hrun : s.running = false) :
    step s = requestStep (takeOffered s) := by
  obtain ⟨-, hrunning⟩ := takeOffered_requests s
  rw [step, driverStep, hw, hrunning, hrun, if_neg Bool.false_ne_true, if_neg Bool.false_ne_true]

/-- With no request pending the block is idle, its state intact (R204, U17). -/
theorem requestStep_nil {s : State} (hq : s.requests = []) : requestStep s = .next s := by rw [requestStep, hq]

/-- Between blocks with no stop the loop waits while the source has no block (R170). -/
theorem loopStep_no_source {s : State} (hseq : s.seq ≠ .busy) (hstop : s.stop = false) (hsource : s.source = []) :
    loopStep s = .next s := by
  rw [loopStep, if_neg hseq, hstop, if_neg Bool.false_ne_true, hsource]

end Sys2Proof.Machine
end

section
/-! Which operations report the exception (R190). -/

namespace Sys2Proof.Machine

/-- The shape `DEC` and `PROC` give their reply: it reports the exception on a length that is no multiple of 4 only, with that length. -/
theorem report_of_ite {r : Reply} {len c n : Nat}
    (h : (if len % 4 = 0 then r else .malformedBlock 1 len) = .malformedBlock c n) (hr : r ≠ .malformedBlock c n) : c = 1 ∧ n % 4 ≠ 0 ∧ len = n := by
  split at h
  · exact absurd h hr
  · cases h
    exact ⟨rfl, by assumption, rfl⟩

/-- An operation that completes with the report is `DEC` or `PROC` of a block of the reported length (R190). -/
theorem exec_reports_malformedBlock {i : Instr} {s t : State} {c n : Nat} (he : exec i s = .next t)
    (ht : t.reply = .malformedBlock c n) :
    c = 1 ∧ n % 4 ≠ 0 ∧ ∃ bs : RawBlock, bs.length = n ∧ (i = .dec bs ∨ i = .proc bs) := by
  rcases exec_cases he with ⟨-, ⟨⟩⟩ | ⟨b, rfl, rfl⟩ | ⟨x, -, rfl⟩ | ⟨x, -, rfl⟩ | ⟨x, -, rfl⟩ | ⟨l, r, out, -, -, rfl⟩ | ⟨b, rfl, hproc⟩
  case inr.inl =>
    obtain ⟨hc, hn, hlen⟩ := report_of_ite ht nofun
    exact ⟨hc, hn, b, hlen, .inl rfl⟩
  case inr.inr.inr.inr.inr.inr =>
    obtain ⟨-, -, -, -, -, -, -, -, -, -, hreply⟩ := execProc_frame hproc
    obtain ⟨hc, hn, hlen⟩ := report_of_ite (hreply.symm.trans ht) nofun
    exact ⟨hc, hn, b, hlen, .inr rfl⟩
  all_goals cases ht

end Sys2Proof.Machine
end

section
/-! The statements on the exception, the reset request and waiting. -/

open Sys2Proof Sys2Proof.Machine

/-- Settles O35: of the replies an operation can give only those of `DEC` and `PROC` report the exception, and their length tests do. -/
theorem malformedBlockIsTheOnlyException : Obligations.MalformedBlockIsTheOnlyException :=
  ⟨fun _ _ _ _ _ he ht => exec_reports_malformedBlock he ht, fun s _ hl =>
    ⟨⟨_, exec_dec_of_malformed s hl, rfl⟩, fun ha => ⟨_, exec_proc_of_malformed ha hl, rfl⟩⟩⟩

/-- Settles O6: the step is `RST` in the state with the request taken off, in both forms of the request. -/
theorem resetRequestOverridesEverything : Obligations.ResetRequestOverridesEverything := by
  refine ⟨fun s hline => ?_, fun s rest hline hq => ?_⟩
  · rw [step_of_resetReq hline, exec_rst_eq]
    rfl
  · rw [step_of_rst hline hq (decode_encode .rst), exec_rst_eq]
    rfl

/-- Settles O7: in each wait nothing is handed over, and the request step or the loop's turn leaves the state as it is. -/
theorem waitingChangesNothing : Obligations.WaitingChangesNothing := by
  intro s hw
  refine ⟨fun hrun hwait hq => ?_, fun hrun hstop hseq hoff hsource => ?_, fun hrun hbusy _ hwait => ?_⟩
  · rw [step_eq_requestStep_of_not_resetWanted hw hrun, takeOffered_of_waits hwait, requestStep_nil hq]
  · rw [step_eq_loopStep hw hrun, takeOffered_of_none hoff, loopStep_no_source hseq hstop hsource]
  · rw [step_eq_loopStep hw hrun, takeOffered_of_waits (.inr hwait), loopStep_busy hbusy]

end

section
/-! How long the registers a block starts with are seen (R131, R134, R223). -/

namespace Sys2Proof.Machine

/-- `PREV` reaches the first demodulator output alone (R122). -/
theorem tail_qdmSeq (p p' : F64) : ∀ x : List F64, (qdmSeq p x).1.tail = (qdmSeq p' x).1.tail
  | [] => rfl
  | x :: xs => by rw [qdmSeq_cons, qdmSeq_cons, List.tail_cons, List.tail_cons]

/-- From sample 27 on the window holds neither an entry of the starting history nor the first sample (R131, R134). -/
theorem drop_toList_append (h : Vector F64 27) (x : List F64) {i : Nat} (hi : 27 ≤ i) :
    (h.toList ++ x).drop (i + 1) = x.tail.drop (i - 27) := by
  have hpast : i + 1 - h.toList.length = i - 27 + 1 := by rw [Vector.length_toList]; omega
  rw [List.drop_append, List.drop_eq_nil_of_le (by rw [Vector.length_toList]; omega), List.nil_append, hpast, List.drop_tail]

theorem firSeq_getElem?_congr (c h h' : Vector F64 27) {x x' : List F64} (hlen : x.length = x'.length) (htail : x.tail = x'.tail)
    {i : Nat} (hi : 27 ≤ i) : (firSeq c h x).1[i]? = (firSeq c h' x').1[i]? := by
  rcases Nat.lt_or_ge i x.length with hlt | hge
  · rw [firSeq_getElem? c h x i hlt, firSeq_getElem? c h' x' i (hlen ▸ hlt), drop_toList_append h x hi,
      drop_toList_append h' x' hi, htail]
  · rw [List.getElem?_eq_none (by rw [length_firSeq]; exact hge),
      List.getElem?_eq_none (by rw [length_firSeq]; exact hlen ▸ hge)]

/-- With the same parameters the amplified streams agree from frame 27 on, whatever `PREV` and `H` were (R223). -/
theorem amplified_getElem?_congr {s s' : State} (hc : s.coeff = s'.coeff) (hg : s.gain = s'.gain) (x : List F64) {i : Nat}
    (hi : 27 ≤ i) : (amplified s x)[i]? = (amplified s' x)[i]? := by
  have hlen : (qdmSeq s.prev x).1.length = (qdmSeq s'.prev x).1.length := by rw [length_qdmSeq, length_qdmSeq]
  rw [amplified, amplified, ampSeq, ampSeq, List.getElem?_map, List.getElem?_map, hc, hg,
    firSeq_getElem?_congr s'.coeff s.hist s'.hist hlen (tail_qdmSeq s.prev s'.prev x) hi]

/-- The integers of a frame depend on that frame's element alone (R114). -/
theorem encSamples_getElem?_congr {x x' : List F64} {zs zs' : List (Int × Int)} (hz : encSamples x x = some zs)
    (hz' : encSamples x' x' = some zs') {i : Nat} (hi : x[i]? = x'[i]?) : zs[i]? = zs'[i]? := by
  obtain ⟨hlen, helem⟩ := encSamples_spec rfl hz
  obtain ⟨hlen', helem'⟩ := encSamples_spec rfl hz'
  rcases hv : x[i]? with _ | v
  · rw [List.getElem?_eq_none (hlen ▸ List.getElem?_eq_none_iff.mp hv),
      List.getElem?_eq_none (hlen' ▸ List.getElem?_eq_none_iff.mp (hi ▸ hv))]
  · obtain ⟨zl, zr, hl, hr, hzi⟩ := helem i v v hv hv
    obtain ⟨zl', zr', hl', hr', hzi'⟩ := helem' i v v (hi ▸ hv) (hi ▸ hv)
    cases hl.symm.trans hl'
    cases hr.symm.trans hr'
    rw [hzi, hzi']

/-- A block of whole frames that completed was accepted, and `OUT` holds the encoding of its amplified stream (R160, R162). -/
theorem out_bytes_of_exec_proc {s t : State} {bs : RawBlock} (hl : bs.length % 4 = 0) (he : exec (.proc bs) s = .next t) :
    ∃ zs, encSamples (amplified s (channel0 bs)) (amplified s (channel0 bs)) = some zs ∧ t.out.bytes = zs.flatMap outFrame := by
  obtain ⟨hfault, hidle, -⟩ := execProc_next_cases he
  have ha : s.accepting = true := (accepting_iff s).mpr ((procRefusal_eq_none_iff s).mpr ⟨hfault, hidle⟩)
  obtain ⟨zs, out, hz, -, -, -, hbytes, -, rfl⟩ := proc_of_next ha hl he
  obtain ⟨-, -, hout, -⟩ := finishBlock_fields (afterStages (acceptBlock s bs) (channel0 bs)) out
  exact ⟨zs, hz, by rw [hout, hbytes]⟩

end Sys2Proof.Machine
end

section
/-! The statement on state continuity. -/

open Sys2Proof Sys2Proof.Machine

/-- Settles O43: byte `j` is a byte of frame `j / 4`, whose amplified value depends on neither `PREV` nor `H` from frame 27 on. -/
theorem carriedStateFadesAfter27Frames : Obligations.CarriedStateFadesAfter27Frames := by
  intro s s' t t' bs hc hg hl he he' j hj
  obtain ⟨zs, hz, hbytes⟩ := out_bytes_of_exec_proc hl he
  obtain ⟨zs', hz', hbytes'⟩ := out_bytes_of_exec_proc hl he'
  have hframe : zs[j / 4]? = zs'[j / 4]? :=
    encSamples_getElem?_congr hz hz' (amplified_getElem?_congr hc hg (channel0 bs) (by omega))
  rw [hbytes, hbytes', ← Nat.div_add_mod j 4, getElem?_flatMap_outFrame zs _ _ (Nat.mod_lt j (by decide)),
    getElem?_flatMap_outFrame zs' _ _ (Nat.mod_lt j (by decide)), hframe]

end
